-- ==== Sys2Proof/Word.lean ====
section
/-! DEFINITION. The unit of every transfer: the 8-bit byte (20_memory.md R43). -/

namespace Sys2Proof

/-- One byte: every protocol field, every buffer cell, every answer of the transport (R15, R43). -/
abbrev Byte := BitVec 8

end Sys2Proof
end

