-- ==== Sys2Proof/Config.lean ====
section
/-! DEFINITION. The implementation parameters of 00_scope.md section 5 (R7 to R14) and the one free
value of the model, the transport oracle (20_memory.md R56). -/

namespace Sys2Proof

/-- The seven commands of a command frame (R71). -/
inductive Cmd where
  | ping | read | write | regWrite | action | reset | syncWrite
deriving DecidableEq, Repr

/-- The eight device fault codes (60_exceptions.md R152). -/
inductive DeviceFault where
  | inputVoltage | angleLimit | overheating | range | checksum | overload | instruction | reserved
deriving DecidableEq, Repr

/-- `SEEK2_MISMATCH` (R11): what a non-marker byte does in state SEEK2. -/
inductive Seek2Mismatch where
  | toSeek1 | staySeek2
deriving DecidableEq, Repr

/-- `SHORT_LENGTH_POLICY` (R12): what a length byte of 0 or 1 does. -/
inductive ShortLengthPolicy where
  | failMalformed | zeroPayload
deriving DecidableEq, Repr

/-- The parameters of one instance of the block, fixed for its life (R7 to R12, R33, R38).
The defaults are the spec's own (log 2); `verbosityInit` has none (DESIGN CHOICE, log 3). -/
structure Params where
  /-- `BROADCAST_ID` (R7). -/
  broadcastId : Byte := 0xFE
  /-- `CMD_PING` (R8). -/
  cmdPing : Byte := 0x01
  /-- `CMD_READ` (R8). -/
  cmdRead : Byte := 0x02
  /-- `CMD_REG_WRITE` (R8). -/
  cmdRegWrite : Byte := 0x04
  /-- `CMD_ACTION` (R8). -/
  cmdAction : Byte := 0x05
  /-- `CMD_RESET` (R8). -/
  cmdReset : Byte := 0x06
  /-- `CMD_SYNC_WRITE` (R8). -/
  cmdSyncWrite : Byte := 0x83
  /-- `STATUS_BIT_MAP` (R9); the default is the table of R79. -/
  statusBitMap : Vector DeviceFault 8 :=
    #v[.inputVoltage, .angleLimit, .overheating, .range, .checksum, .overload, .instruction, .reserved]
  /-- `STATUS_PRIORITY`, highest first (R10); the default is R118's. -/
  statusPriority : List (Fin 8) := [2, 5, 3, 6, 0, 4, 1, 7]
  /-- `SEEK2_MISMATCH` (R11). -/
  seek2Mismatch : Seek2Mismatch := .toSeek1
  /-- `SHORT_LENGTH_POLICY` (R12). -/
  shortLengthPolicy : ShortLengthPolicy := .failMalformed
  /-- `VERBOSITY_INIT` (R33). -/
  verbosityInit : Byte := 0x00
deriving DecidableEq, Repr

/-- Every parameter at its default. -/
def Params.default : Params := {}

/-- The value of byte 4 of a command frame: `CMD_[c]` (R71). `CMD_WRITE` is fixed by R8. -/
def Params.code (p : Params) : Cmd → Byte
  | .ping => p.cmdPing
  | .read => p.cmdRead
  | .write => 0x03
  | .regWrite => p.cmdRegWrite
  | .action => p.cmdAction
  | .reset => p.cmdReset
  | .syncWrite => p.cmdSyncWrite

/-- The seven commands, in the order of ENCODE's selector (R85). -/
def Cmd.all : List Cmd := [.ping, .read, .write, .regWrite, .action, .reset, .syncWrite]

/-- What R7 to R10 ask of the parameters: the broadcast id is 0xFE or 0xFF, the seven command codes
and the eight fault codes are pairwise distinct, the priority names every bit once. -/
abbrev Params.Valid (p : Params) : Prop :=
  0xFE ≤ p.broadcastId.toNat ∧ (Cmd.all.map p.code).Nodup ∧
    p.statusBitMap.toList.Nodup ∧ p.statusPriority.Perm (List.finRange 8)

namespace Config

/-- `MARKER` (R14). -/
def marker : Byte := 0xFF

/-- `PAYLOAD_CAPACITY` (R13): the bytes of PBUF. -/
def payloadCapacity : Nat := 253

/-- The bytes of TXBUF: 4 plus the largest length value (R34, R44). -/
def txCapacity : Nat := 259

/-- The transport's n-th answer once its script and pattern are used up: any byte, or NONE (R56).
A FREE VALUE: nothing constrains it (log 5). -/
opaque rxOracle : Nat → Option Byte

end Config

end Sys2Proof
end

