-- ==== Sys2Proof/Syntax.lean ====
section
/-! DEFINITION. The instructions: one constructor per row of spec/opcode_table.json, and the two forms
in which an instruction reaches the block, a request on the host interface and a frame. -/

namespace Sys2Proof

/-- The operations of the block. The first seven are the command frames of R71, which the block takes
from TXBUF and hands to the transport (log 9); the others are the operations the host selects (R84). -/
inductive Instr where
  /-- CMD_PING frame (R72). -/
  | cmdPing (id : Byte)
  /-- CMD_READ frame, payload `[offset, count]` (R73). -/
  | cmdRead (id offset count : Byte)
  /-- CMD_WRITE frame, payload `[offset] ++ data` (R74). -/
  | cmdWrite (id offset : Byte) (data : List Byte)
  /-- CMD_REG_WRITE frame, payload `[offset] ++ data` (R75). -/
  | cmdRegWrite (id offset : Byte) (data : List Byte)
  /-- CMD_ACTION frame, to BROADCAST_ID with an empty payload (R76). -/
  | cmdAction
  /-- CMD_RESET frame, empty payload (R77). -/
  | cmdReset (id : Byte)
  /-- CMD_SYNC_WRITE frame, to BROADCAST_ID with the payload of R78. -/
  | cmdSyncWrite (offset : Byte) (ids : List Byte) (values : List (List Byte))
  /-- PARSER_CLEAR (R114). -/
  | parserClear
  /-- PROCESS_BYTE (R103). -/
  | processByte (b : Byte)
  /-- GET_DEVICE_ID (R119). -/
  | getDeviceId
  /-- GET_ERROR_CODE (R120). -/
  | getErrorCode
  /-- GET_PAYLOAD (R121). -/
  | getPayload
  /-- GET_STATUS_RAW (R122). -/
  | getStatusRaw
  /-- CHECKSUM (R93). -/
  | checksum (bytes : List Byte)
  /-- VALIDATE (R96). -/
  | validate (frame : List Byte)
  /-- ENCODE (R97); `cmd` is the selector of R85, 7 being reserved. -/
  | encodeOp (id : Byte) (cmd : BitVec 3) (payload : List Byte)
  /-- PING (R129). -/
  | ping (id : Byte)
  /-- READ (R131). -/
  | read (id offset count : Byte)
  /-- WRITE (R133). -/
  | write (id offset : Byte) (data : List Byte)
  /-- REG_WRITE (R135). -/
  | regWrite (id offset : Byte) (data : List Byte)
  /-- RESET (R137). -/
  | resetDevice (id : Byte)
  /-- ACTION (R139). -/
  | action
  /-- SYNC_WRITE (R141). -/
  | syncWrite (ids : List Byte) (offset : Byte) (values : List (List Byte))
  /-- SCAN (R146); `count` is an unbounded natural number (R15). -/
  | scan (startId : Byte) (count : Nat)
  | reserved06
  | reserved07
  | reserved0b
  | reserved0c
  | reserved0d
  | reserved0e
  | reserved0f
  | reserved18
  | reserved19
  | reserved1a
  | reserved1b
  | reserved1c
  | reserved1d
  | reserved1e
  | reserved1f
deriving DecidableEq, Repr

/-- A command frame of R71, as against an operation of the host. -/
def Instr.isFrame : Instr → Bool
  | .cmdPing _ | .cmdRead _ _ _ | .cmdWrite _ _ _ | .cmdRegWrite _ _ _ | .cmdAction | .cmdReset _
  | .cmdSyncWrite _ _ _ => true
  | .parserClear | .processByte _ | .getDeviceId | .getErrorCode | .getPayload | .getStatusRaw
  | .checksum _ | .validate _ | .encodeOp _ _ _
  | .ping _ | .read _ _ _ | .write _ _ _ | .regWrite _ _ _ | .resetDevice _ | .action
  | .syncWrite _ _ _ | .scan _ _
  | .reserved06 | .reserved07 | .reserved0b | .reserved0c | .reserved0d | .reserved0e | .reserved0f
  | .reserved18 | .reserved19 | .reserved1a | .reserved1b | .reserved1c | .reserved1d | .reserved1e
  | .reserved1f => false

/-- What the host drives onto the request interface: the selector of R84 and the operand fields of R85.
An operation reads the fields R85 gives it and no others (DESIGN CHOICE, log 6). `id` is also SCAN's
`start_id`; `bytes` is CHECKSUM's `bytes`, VALIDATE's `frame`, ENCODE's `payload`, the writes' `data` and
SYNC_WRITE's `ids`; `total` is SCAN's `count`. -/
structure Request where
  op : BitVec 5
  id : Byte := 0
  b : Byte := 0
  offset : Byte := 0
  count : Byte := 0
  cmd : BitVec 3 := 0
  bytes : List Byte := []
  values : List (List Byte) := []
  total : Nat := 0
deriving DecidableEq, Repr

/-- An encoded instruction, in one of the two formats of opcode_table.json: `host_op`, `command_frame`. -/
inductive Code where
  | request (r : Request)
  | frame (bytes : List Byte)
deriving DecidableEq, Repr

end Sys2Proof
end

