-- ==== Sys2Proof/WellFormed.lean ====
section
/-! DEFINITION. What an instruction must satisfy to have an encoding. Every operand of a host operation
has one (R85); a command frame needs a target in the id domain and a payload its length byte can count
(20_memory.md R45, 30_encoding.md R66, R78). -/

namespace Sys2Proof

/-- The id domain of the encoder: `{0..253} ∪ {BROADCAST_ID}` (R45). -/
def idInDomain (p : Params) (id : Byte) : Bool :=
  decide (id.toNat ≤ 253) || id == p.broadcastId

/-- The arguments of a SYNC_WRITE frame: as many values as ids, at least one, all of one length (R144). -/
def syncShapeOk (ids : List Byte) (values : List (List Byte)) : Bool :=
  decide (ids.length = values.length) && !ids.isEmpty &&
    values.all fun v => v.length == (values.headD []).length

/-- The length of a SYNC_WRITE payload: `2 + m * (1 + k)` (R78). -/
def syncPayloadLength (ids : List Byte) (values : List (List Byte)) : Nat :=
  2 + ids.length * (1 + (values.headD []).length)

/-- Whether an instruction has an encoding. -/
def wellFormed (p : Params) : Instr → Bool
  | .cmdPing id | .cmdRead id _ _ | .cmdReset id => idInDomain p id
  | .cmdWrite id _ data | .cmdRegWrite id _ data => idInDomain p id && decide (1 + data.length ≤ 253)
  | .cmdSyncWrite _ ids values => syncShapeOk ids values && decide (syncPayloadLength ids values ≤ 253)
  | .cmdAction
  | .parserClear | .processByte _ | .getDeviceId | .getErrorCode | .getPayload | .getStatusRaw
  | .checksum _ | .validate _ | .encodeOp _ _ _
  | .ping _ | .read _ _ _ | .write _ _ _ | .regWrite _ _ _ | .resetDevice _ | .action
  | .syncWrite _ _ _ | .scan _ _
  | .reserved06 | .reserved07 | .reserved0b | .reserved0c | .reserved0d | .reserved0e | .reserved0f
  | .reserved18 | .reserved19 | .reserved1a | .reserved1b | .reserved1c | .reserved1d | .reserved1e
  | .reserved1f => true

end Sys2Proof
end

