-- ==== Sys2Proof/Decode.lean ====
section
/-! DEFINITION. The encodings of 30_encoding.md: the frame layout and its checksum (R65 to R67), the
payloads (R72 to R78), the host selectors (R84), the decoder over both formats and the encoder. -/

namespace Sys2Proof

/-! ### Frame layout -/

/-- `sum8` (R16): the sum of the bytes modulo 256. -/
def sum8 (bs : List Byte) : Byte :=
  BitVec.ofNat 8 ((bs.map BitVec.toNat).sum)

/-- The checksum byte of a frame body, `255 - sum8` (R67, R93). -/
def checksumOf (body : List Byte) : Byte :=
  255 - sum8 body

/-- The bytes from `device_id` through the last payload byte (R65, R66). -/
def frameBody (id code : Byte) (payload : List Byte) : List Byte :=
  [id, BitVec.ofNat 8 (payload.length + 2), code] ++ payload

/-- A whole frame (R65). -/
def buildFrame (id code : Byte) (payload : List Byte) : List Byte :=
  [Config.marker, Config.marker] ++ frameBody id code payload ++ [checksumOf (frameBody id code payload)]

/-- The payload of a SYNC_WRITE frame (R78). A width `k` above 255 would be cut to a byte here, and every
such request is too long for a frame (log 19). -/
def syncPayload (offset : Byte) (ids : List Byte) (values : List (List Byte)) : List Byte :=
  [offset, BitVec.ofNat 8 (values.headD []).length] ++ (ids.zip values).flatMap fun e => e.1 :: e.2

/-! ### Decoding -/

/-- Why bytes are not a command frame of this block. -/
inductive DecodeError where
  /-- Fewer bytes than markers, id, length and command. -/
  | tooShort
  /-- Bytes 0 and 1 are not the two markers (R65). -/
  | badPreamble
  /-- The length byte is not `2 + n` (R66). -/
  | badLength
  /-- The last byte is not the checksum (R67). -/
  | badChecksum
  /-- The target is outside the encoder's id domain (R45). -/
  | badTarget
  /-- Byte 4 is none of the seven command codes (R71, R89). -/
  | unknownCommand
  /-- The payload, or the target, is not the command's (R72 to R78). -/
  | badPayload
  /-- The word has bits above the table's byte. -/
  | wideWord
deriving DecidableEq, Repr

/-- The command whose code is `code` (R71). -/
def commandOf (p : Params) (code : Byte) : Option Cmd :=
  Cmd.all.find? fun c => p.code c == code

/-- The devices of a SYNC_WRITE payload, `k` bytes each (R78). The first argument bounds their number. -/
def parseEntries (k : Nat) : Nat → List Byte → Option (List Byte × List (List Byte))
  | _, [] => some ([], [])
  | 0, _ :: _ => none
  | n + 1, id :: rest =>
    if rest.length < k then none
    else (parseEntries k n (rest.drop k)).map fun e => (id :: e.1, rest.take k :: e.2)

/-- The instruction of a command frame with this target and payload (R72 to R78). -/
def decodePayload (p : Params) (id : Byte) (payload : List Byte) : Cmd → Except DecodeError Instr
  | .ping => if payload = [] then .ok (.cmdPing id) else .error .badPayload
  | .read => match payload with
    | [offset, count] => .ok (.cmdRead id offset count)
    | _ => .error .badPayload
  | .write => match payload with
    | offset :: data => .ok (.cmdWrite id offset data)
    | [] => .error .badPayload
  | .regWrite => match payload with
    | offset :: data => .ok (.cmdRegWrite id offset data)
    | [] => .error .badPayload
  | .action => if payload = [] ∧ id = p.broadcastId then .ok .cmdAction else .error .badPayload
  | .reset => if payload = [] then .ok (.cmdReset id) else .error .badPayload
  | .syncWrite => match payload with
    | offset :: k :: rest =>
      if id = p.broadcastId then
        match parseEntries k.toNat rest.length rest with
        | some (i :: ids, values) => .ok (.cmdSyncWrite offset (i :: ids) values)
        | _ => .error .badPayload
      else .error .badPayload
    | _ => .error .badPayload

/-- The instruction of a command frame (R65 to R71). -/
def decodeFrame (p : Params) : List Byte → Except DecodeError Instr
  | m1 :: m2 :: id :: length :: code :: rest =>
    let payload := rest.dropLast
    if m1 ≠ Config.marker ∨ m2 ≠ Config.marker then .error .badPreamble
    else if rest = [] ∨ length.toNat ≠ payload.length + 2 then .error .badLength
    else if rest.getLast? ≠ some (checksumOf (id :: length :: code :: payload)) then .error .badChecksum
    else if !idInDomain p id then .error .badTarget
    else match commandOf p code with
      | none => .error .unknownCommand
      | some c => decodePayload p id payload c
  | _ => .error .tooShort

/-- The operation a request selects (R84, R85). Every selector has a row, the reserved ones too (R89). -/
def decodeRequest (r : Request) : Instr :=
  match r.op.toNat with
  | 0x00 => .parserClear
  | 0x01 => .processByte r.b
  | 0x02 => .getDeviceId
  | 0x03 => .getErrorCode
  | 0x04 => .getPayload
  | 0x05 => .getStatusRaw
  | 0x06 => .reserved06
  | 0x07 => .reserved07
  | 0x08 => .checksum r.bytes
  | 0x09 => .validate r.bytes
  | 0x0A => .encodeOp r.id r.cmd r.bytes
  | 0x0B => .reserved0b
  | 0x0C => .reserved0c
  | 0x0D => .reserved0d
  | 0x0E => .reserved0e
  | 0x0F => .reserved0f
  | 0x10 => .ping r.id
  | 0x11 => .read r.id r.offset r.count
  | 0x12 => .write r.id r.offset r.bytes
  | 0x13 => .regWrite r.id r.offset r.bytes
  | 0x14 => .resetDevice r.id
  | 0x15 => .action
  | 0x16 => .syncWrite r.bytes r.offset r.values
  | 0x17 => .scan r.id r.total
  | 0x18 => .reserved18
  | 0x19 => .reserved19
  | 0x1A => .reserved1a
  | 0x1B => .reserved1b
  | 0x1C => .reserved1c
  | 0x1D => .reserved1d
  | 0x1E => .reserved1e
  | _ => .reserved1f

/-- The decoder: total on every request and every byte list. -/
def decode (p : Params) : Code → Except DecodeError Instr
  | .request r => .ok (decodeRequest r)
  | .frame bytes => decodeFrame p bytes

/-! ### Encoding -/

/-- The encoding of an instruction: its request on the host interface (R84, R85), or its frame (R65, R71
to R78). -/
def encode (p : Params) : Instr → Code
  | .cmdPing id => .frame (buildFrame id (p.code .ping) [])
  | .cmdRead id offset count => .frame (buildFrame id (p.code .read) [offset, count])
  | .cmdWrite id offset data => .frame (buildFrame id (p.code .write) (offset :: data))
  | .cmdRegWrite id offset data => .frame (buildFrame id (p.code .regWrite) (offset :: data))
  | .cmdAction => .frame (buildFrame p.broadcastId (p.code .action) [])
  | .cmdReset id => .frame (buildFrame id (p.code .reset) [])
  | .cmdSyncWrite offset ids values =>
    .frame (buildFrame p.broadcastId (p.code .syncWrite) (syncPayload offset ids values))
  | .parserClear => .request { op := 0x00 }
  | .processByte b => .request { op := 0x01, b }
  | .getDeviceId => .request { op := 0x02 }
  | .getErrorCode => .request { op := 0x03 }
  | .getPayload => .request { op := 0x04 }
  | .getStatusRaw => .request { op := 0x05 }
  | .reserved06 => .request { op := 0x06 }
  | .reserved07 => .request { op := 0x07 }
  | .checksum bytes => .request { op := 0x08, bytes }
  | .validate frame => .request { op := 0x09, bytes := frame }
  | .encodeOp id cmd payload => .request { op := 0x0A, id, cmd, bytes := payload }
  | .reserved0b => .request { op := 0x0B }
  | .reserved0c => .request { op := 0x0C }
  | .reserved0d => .request { op := 0x0D }
  | .reserved0e => .request { op := 0x0E }
  | .reserved0f => .request { op := 0x0F }
  | .ping id => .request { op := 0x10, id }
  | .read id offset count => .request { op := 0x11, id, offset, count }
  | .write id offset data => .request { op := 0x12, id, offset, bytes := data }
  | .regWrite id offset data => .request { op := 0x13, id, offset, bytes := data }
  | .resetDevice id => .request { op := 0x14, id }
  | .action => .request { op := 0x15 }
  | .syncWrite ids offset values => .request { op := 0x16, offset, bytes := ids, values }
  | .scan startId count => .request { op := 0x17, id := startId, total := count }
  | .reserved18 => .request { op := 0x18 }
  | .reserved19 => .request { op := 0x19 }
  | .reserved1a => .request { op := 0x1A }
  | .reserved1b => .request { op := 0x1B }
  | .reserved1c => .request { op := 0x1C }
  | .reserved1d => .request { op := 0x1D }
  | .reserved1e => .request { op := 0x1E }
  | .reserved1f => .request { op := 0x1F }

/-! ### The words of opcode_table.json -/

/-- A command frame whose byte 4 is `code` and whose operand bytes are 0: target 0 (BROADCAST_ID for the two
broadcast commands), offset, count and width 0, one device 0 for SYNC_WRITE. -/
def zeroOperandFrame (p : Params) (code : Byte) : List Byte :=
  match commandOf p code with
  | some .read => buildFrame 0 code [0, 0]
  | some .write | some .regWrite => buildFrame 0 code [0]
  | some .action => buildFrame p.broadcastId code []
  | some .syncWrite => buildFrame p.broadcastId code [0, 0, 0]
  | _ => buildFrame 0 code []

/-- The encoded instruction a word of the table stands for. A word below 32 is a selector in `op[4:0]` with
every operand field 0; another byte is byte 4 of a command frame. The table gives the codes 0x01 to 0x06 to
a row of each format: such a word is read as the host's selector (DESIGN CHOICE, log 10). -/
def codeOfWord (p : Params) (nbits w : Nat) : Except DecodeError Code :=
  let w := w % 2 ^ nbits
  if w < 32 then .ok (.request { op := BitVec.ofNat 5 w })
  else if w < 256 then .ok (.frame (zeroOperandFrame p (BitVec.ofNat 8 w)))
  else .error .wideWord

/-- The instruction the decoder reads from a word of the table, at the default parameters. -/
def decodeTableWord (nbits w : Nat) : Option Instr :=
  match codeOfWord Params.default nbits w with
  | .ok c => (decode Params.default c).toOption
  | .error _ => none

end Sys2Proof
end

