-- ==== Sys2Proof/Machine/State.lean ====
section
/-! DEFINITION. The state of the packet core (10_state.md), as plain data: the parser's registers `P`, the
dispatcher's registers `D`, the instance's parameters, and what stands around the block, the host and the
transport (`env`). -/

namespace Sys2Proof.Machine

/-! ### Register types -/

/-- The nine values of `P.state` (R22). -/
inductive ParserState where
  | seek1 | seek2 | id | len | status | payload | check | complete | failed
deriving DecidableEq, Repr

/-- The ErrorCodes of R81. -/
inductive ErrorCode where
  | none | inputVoltage | angleLimit | overheating | range | checksum | overload | instruction | reserved
  | notDone | timeout | malformed
deriving DecidableEq, Repr

/-- The validation error kinds of R87. -/
inductive ValidationKind where
  | dim | empty | width | tooLong | id
deriving DecidableEq, Repr

/-- The fault kinds of R88: results of the block, after which it goes on. -/
inductive FaultKind where
  | parserDone | notComplete | busy | illegalOp
deriving DecidableEq, Repr

/-- The data part of a result (R86). -/
inductive Data where
  | empty
  | byte (b : Byte)
  | bytes (bs : List Byte)
  | bool (b : Bool)
deriving DecidableEq, Repr

/-- Why an operation ends without success (R151). -/
inductive OpError where
  | bus (code : ErrorCode)
  | validation (kind : ValidationKind)
  | fault (kind : FaultKind)
deriving DecidableEq, Repr

/-- `D.result` (R32, R86): OK with a code and data, or an error, whose data part is empty. -/
inductive Result where
  | ok (code : ErrorCode) (data : Data)
  | error (e : OpError)
deriving DecidableEq, Repr

/-- `D.phase` (R31). -/
inductive Phase where
  | idle | tx | rx | scan
deriving DecidableEq, Repr

/-- The dispatcher operation in progress, which decides what follows its transmission and its reply
(implied by R124, R129 and R146; log 8). -/
inductive Activity where
  | none | ping | read | write | regWrite | reset | action | syncWrite | scan
deriving DecidableEq, Repr

/-- One `(id, found)` event of SCAN (R35). -/
structure ScanEvent where
  id : Byte
  found : Bool
deriving DecidableEq, Repr

/-- A buffer of the block: the bytes that differ from `Buffer.unwritten` by index, indices strictly rising (log 11). -/
abbrev Buffer := List Host.Cell

/-- The PacketParser's registers (R22 to R29). -/
structure Parser where
  state : ParserState
  devId : Byte
  length : Byte
  statusRaw : Byte
  idx : Byte
  sum : Byte
  code : ErrorCode
  pbuf : Buffer
deriving DecidableEq, Repr

/-- The dispatcher's registers (R31 to R35), and the operation in progress. -/
structure Dispatcher where
  phase : Phase
  activity : Activity
  result : Result
  verbosity : Byte
  txbuf : Buffer
  txlen : BitVec 9
  scanId : Byte
  scanEnd : BitVec 9
  scanFound : Bool
  scanLog : List ScanEvent
deriving DecidableEq, Repr

/-! ### Around the block -/

/-- What the host does: issue an operation, or assert the reset input (R173). -/
inductive HostAct where
  | op (r : Request)
  | rst
deriving DecidableEq, Repr

/-- One entry of the host's schedule. `due = none`: the host waits for IDLE, as R177 asks. `due = some n`:
it acts after `n` further core steps, whatever the phase, so an operation can meet F_BUSY (log 4). -/
structure HostEvent where
  due : Option Nat
  act : HostAct
deriving DecidableEq, Repr

/-- What the host is given when an operation ends: the result and, for SCAN, the event log (R86, R189). -/
structure Reply where
  result : Result
  scanLog : List ScanEvent
deriving DecidableEq, Repr

/-- What the transport answers once its script is used up: a pattern for ever (the empty one: NONE for ever,
R91), or free values counted from `draws` (R56, log 5). -/
inductive RxTail where
  | repeating (pattern : List (Option Byte))
  | oracle (draws : Nat)
deriving DecidableEq, Repr

/-- The host and the transport, outside the block (R36, R40, R41; log 4, log 5). -/
structure Env where
  host : List HostEvent
  replies : List Reply
  sent : List (List Byte)
  rx : List (Option Byte)
  rxTail : RxTail
deriving DecidableEq, Repr

/-- The whole machine. `params` is fixed for the life of an instance (R38, log 1). -/
structure State where
  params : Params
  P : Parser
  D : Dispatcher
  env : Env
deriving DecidableEq, Repr

/-! ### Why a step can stop -/

/-- Why the machine stops with a fault. All are safe: no state a run reaches raises them (log 12), and the
hardware is not claimed to do anything there. -/
inductive Fault where
  /-- A buffer index the spec does not give (R28, R34), raised by the reads and writes of PBUF and TXBUF. Safe. -/
  | bufferIndex
  /-- `pstep` on a terminal parser, which R111 leaves undefined, raised by an exchange. Safe. -/
  | parserTerminal
deriving DecidableEq, Repr

/-- Why a step has no meaning. -/
inductive Refusal where
  /-- An instruction without a meaning yet: none. Raised by exec. Safe. -/
  | notModelled (mnemonic : String)
  /-- A command frame met outside phase TX, which the block never does (log 9). Raised by the command frames. Safe. -/
  | frameOutsideTx
  /-- TXBUF holds no command frame in phase TX, which no run reaches (log 9). Raised by step. Safe. -/
  | undecodable (e : DecodeError)
deriving DecidableEq, Repr

/-! ### Reset (R42, R173) -/

/-- The parser after reset (R42). Every byte of PBUF is 0x00, the model's choice (log 11). -/
def Parser.reset : Parser where
  state := .seek1
  devId := 0
  length := 0
  statusRaw := 0
  idx := 0
  sum := 0
  code := .notDone
  pbuf := []

/-- The dispatcher after reset (R42); the bytes of TXBUF, all 0x00, and the scan registers are the model's
choice (log 11, log 13). -/
def Dispatcher.reset (verbosityInit : Byte) : Dispatcher where
  phase := .idle
  activity := .none
  result := .ok .none .empty
  verbosity := verbosityInit
  txbuf := []
  txlen := 0
  scanId := 0
  scanEnd := 0
  scanFound := false
  scanLog := []

/-- The surroundings before the host has acted: nothing scheduled, nothing sent, the transport's answers free
(log 4, log 5, log 17). -/
def Env.initial : Env where
  host := []
  replies := []
  sent := []
  rx := []
  rxTail := .oracle 0

/-- The machine right after reset, at the default parameters (R173, R188; log 2). -/
def State.reset : State where
  params := Params.default
  P := Parser.reset
  D := Dispatcher.reset Params.default.verbosityInit
  env := Env.initial

end Sys2Proof.Machine
end

