-- ==== Sys2Proof/Machine/Flags.lean ====
section
/-! DEFINITION. The block has no condition flags (R30); this file holds what stands in their place: the
parser's outcome signal, the resolution of a status byte (R118), and the bit encodings of the register
types (R22, R31, R81, R86 to R88). -/

namespace Sys2Proof.Machine

/-- The outcome of the parser (R18, R30). -/
inductive Outcome where
  | notDone
  | complete
  | failed (code : ErrorCode)
deriving DecidableEq, Repr

/-- `outcome(P)` (R30). -/
def outcome (P : Parser) : Outcome :=
  match P.state with
  | .complete => .complete
  | .failed => .failed P.code
  | _ => .notDone

/-- `done` (R30): COMPLETE or FAILED. -/
def Parser.done (P : Parser) : Bool :=
  P.state == .complete || P.state == .failed

/-- `ok` (R30). -/
def Parser.isComplete (P : Parser) : Bool :=
  P.state == .complete

/-- The outcome tag byte PROCESS_BYTE returns (R86). -/
def Outcome.tag : Outcome → Byte
  | .notDone => 0
  | .complete => 1
  | .failed _ => 2

/-- The ErrorCode of a device fault (R152). -/
def faultCode : DeviceFault → ErrorCode
  | .inputVoltage => .inputVoltage
  | .angleLimit => .angleLimit
  | .overheating => .overheating
  | .range => .range
  | .checksum => .checksum
  | .overload => .overload
  | .instruction => .instruction
  | .reserved => .reserved

/-- `resolve(s)` (R118): NONE for 0, else the fault of the first bit of STATUS_PRIORITY that is set. (A priority
that names not every bit, which R10 excludes, may find none: NONE then, log 21.) -/
def resolve (p : Params) (s : Byte) : ErrorCode :=
  if s = 0 then .none
  else match p.statusPriority.find? fun i : Fin 8 => s.getLsbD i.val with
    | some i => faultCode p.statusBitMap[i]
    | none => .none

/-! ### Bit encodings -/

/-- `P.state[3:0]` (R22). -/
def ParserState.bits : ParserState → BitVec 4
  | .seek1 => 0
  | .seek2 => 1
  | .id => 2
  | .len => 3
  | .status => 4
  | .payload => 5
  | .check => 6
  | .complete => 7
  | .failed => 8

/-- `D.phase[1:0]` (R31). -/
def Phase.bits : Phase → BitVec 2
  | .idle => 0
  | .tx => 1
  | .rx => 2
  | .scan => 3

/-- The 9-bit value of an ErrorCode (R81). -/
def ErrorCode.bits : ErrorCode → BitVec 9
  | .none => 0x000
  | .inputVoltage => 0x001
  | .angleLimit => 0x002
  | .overheating => 0x004
  | .range => 0x008
  | .checksum => 0x010
  | .overload => 0x020
  | .instruction => 0x040
  | .reserved => 0x080
  | .notDone => 0x100
  | .timeout => 0x101
  | .malformed => 0x103

/-- The value of a validation error kind (R87). -/
def ValidationKind.bits : ValidationKind → BitVec 9
  | .dim => 1
  | .empty => 2
  | .width => 3
  | .tooLong => 4
  | .id => 5

/-- The value of a fault kind (R88). -/
def FaultKind.bits : FaultKind → BitVec 9
  | .parserDone => 1
  | .notComplete => 2
  | .busy => 3
  | .illegalOp => 4

/-- `D.result.kind` (R86). -/
def Result.kindBits : Result → BitVec 2
  | .ok _ _ => 0
  | .error (.bus _) => 1
  | .error (.validation _) => 2
  | .error (.fault _) => 3

/-- `D.result.code` (R86). -/
def Result.codeBits : Result → BitVec 9
  | .ok code _ => code.bits
  | .error (.bus code) => code.bits
  | .error (.validation kind) => kind.bits
  | .error (.fault kind) => kind.bits

/-- `D.result.data` (R86): empty unless the kind is OK. -/
def Result.data : Result → Data
  | .ok _ data => data
  | .error _ => .empty

end Sys2Proof.Machine
end

