-- ==== Sys2Proof/Machine/Ops.lean ====
section
/-! DEFINITION. The named operations over the buffers, the transport and the result register that every
meaning is written with; taking an error (R161) is one of them. -/

namespace Sys2Proof.Machine

/-- What a meaning answers. -/
abbrev StepOutcome := Host.Outcome State Fault Refusal

/-! ### Buffers (R47, R48) -/

/-- What a byte of a buffer reads as when nothing has written it since reset: 0x00. R42 gives none
(DESIGN CHOICE, log 11). -/
def Buffer.unwritten : Byte := 0x00

/-- The byte at an index: `MemRead` (R17). -/
def Buffer.get : Buffer → Nat → Byte
  | [], _ => Buffer.unwritten
  | (j, b) :: m, i => if i = j then b else Buffer.get m i

/-- The cells with `(i, b)` at its place among the rising indices. -/
def Buffer.insert : Buffer → Nat → Byte → Buffer
  | [], i, b => [(i, b)]
  | (j, c) :: m, i, b =>
    if i < j then (i, b) :: (j, c) :: m
    else if i = j then (i, b) :: m
    else (j, c) :: Buffer.insert m i b

/-- The buffer with the byte at `i` set to `b`: `MemWrite` (R17). A byte that reads as an unlisted one has no cell. -/
def Buffer.set (m : Buffer) (i : Nat) (b : Byte) : Buffer :=
  if b = Buffer.unwritten then m.filter fun x => x.1 ≠ i else Buffer.insert m i b

/-- Consecutive bytes written from index `i` on. -/
def Buffer.store : Buffer → Nat → List Byte → Buffer
  | m, _, [] => m
  | m, i, b :: bs => Buffer.store (Buffer.set m i b) (i + 1) bs

/-- The `n` bytes from index `i` on. -/
def Buffer.slice (m : Buffer) : Nat → Nat → List Byte
  | _, 0 => []
  | i, n + 1 => Buffer.get m i :: Buffer.slice m (i + 1) n

/-- The first `n` bytes of a buffer of `capacity` bytes: a fault outside it (log 12). -/
def Buffer.load (capacity : Nat) (m : Buffer) (n : Nat) : Except Fault (List Byte) :=
  if capacity < n then .error .bufferIndex else .ok (Buffer.slice m 0 n)

/-- The canonical form: indices strictly rising, all inside the buffer, and no cell that reads as an unlisted one. -/
abbrev Buffer.Wf (capacity : Nat) (m : Buffer) : Prop :=
  m.Pairwise (fun x y => x.1 < y.1) ∧ ∀ x ∈ m, x.1 < capacity ∧ x.2 ≠ Buffer.unwritten

/-! ### The transport (R55, R56) -/

/-- `TxWrite(frame)` (R55): the whole frame is handed over at once. -/
def txWrite (frame : List Byte) (s : State) : State :=
  { s with env := { s.env with sent := s.env.sent ++ [frame] } }

/-- `RxRead()` (R56, R57): the transport's next answer, which is consumed. -/
def rxRead (s : State) : Option Byte × State :=
  match s.env.rx with
  | a :: rest => (a, { s with env := { s.env with rx := rest } })
  | [] => match s.env.rxTail with
    | .repeating [] => (none, s)
    | .repeating (a :: rest) => (a, { s with env := { s.env with rx := rest } })
    | .oracle n => (Config.rxOracle n, { s with env := { s.env with rxTail := .oracle (n + 1) } })

/-! ### Ending an operation (R123, R161) -/

/-- An operation ends: `D.result` is written, the phase is IDLE, and the host has its reply, with SCAN's event
log where there is one (R123, R189). -/
def endOp (r : Result) (log : List ScanEvent) (s : State) : State :=
  { s with
    D := { s.D with phase := .idle, activity := .none, result := r }
    env := { s.env with replies := s.env.replies ++ [⟨r, log⟩] } }

/-- The event log an ending operation returns: SCAN's, and no other's (R86, R148). -/
def activityLog (s : State) : List ScanEvent :=
  if s.D.activity = .scan then s.D.scanLog else []

/-- Taking an error (R161): the result gets the error's kind and code and an empty data part, the phase returns
to IDLE, nothing else is saved or changed. -/
def raise (e : OpError) (s : State) : State :=
  endOp (.error e) [] s

/-- Success with this code and data (R86). -/
def succeed (code : ErrorCode) (data : Data) (s : State) : State :=
  endOp (.ok code data) [] s

/-- An operation refused with F_BUSY (R123, R156, C11): the issuer is told, no register is written. -/
def refuseBusy (s : State) : State :=
  { s with env := { s.env with replies := s.env.replies ++ [⟨.error (.fault .busy), []⟩] } }

/-- Accepting a host operation (R123): only while the phase is IDLE. -/
def accept (s : State) (op : State → StepOutcome) : StepOutcome :=
  if s.D.phase = .idle then op s else .next (refuseBusy s)

/-! ### Reset (R173 to R175) -/

/-- The parser made fresh (R114, R124): PBUF is left as it is. -/
def Parser.cleared (P : Parser) : Parser :=
  { Parser.reset with pbuf := P.pbuf }

/-- The reset input (R173): every register takes its reset value. The parameters, the transport and the host
are not touched (R175). An operation in progress ends without a reply (log 18). -/
def coreReset (s : State) : State :=
  { s with P := Parser.reset, D := Dispatcher.reset s.params.verbosityInit }

end Sys2Proof.Machine
end

