-- ==== Sys2Proof/Machine/Operands.lean ====
section
/-! DEFINITION. The operand checks of the operations and the frames they name: ENCODE's computation (R97),
SYNC_WRITE's argument checks (R144), SCAN's range (R147). -/

namespace Sys2Proof.Machine

/-- The largest payload a frame can carry (R66, R97). -/
def maxPayload : Nat := 253

/-- ENCODE's selector `cmd[2:0]` (R85); 7 is reserved. -/
def cmdOfSelector (cmd : BitVec 3) : Option Cmd :=
  Cmd.all[cmd.toNat]?

/-- The frame of a command (R97, R98): V_ID before V_TOO_LONG. -/
def encodeCommand (p : Params) (id : Byte) (c : Cmd) (payload : List Byte) :
    Except ValidationKind (List Byte) :=
  if !idInDomain p id then .error .id
  else if maxPayload < payload.length then .error .tooLong
  else .ok (buildFrame id (p.code c) payload)

/-- SYNC_WRITE's argument checks, the first that fails (R144). -/
def syncCheck (ids : List Byte) (values : List (List Byte)) : Option ValidationKind :=
  if ids.length ≠ values.length then some .dim
  else if ids.length = 0 then some .empty
  else if values.any fun v => v.length != (values.headD []).length then some .width
  else none

/-- One past the last id of a SCAN, on natural numbers without wrap (R147). -/
def scanEndOf (p : Params) (startId : Byte) (count : Nat) : Nat :=
  min (startId.toNat + count) (min p.broadcastId.toNat 254)

/-- The test of SCAN's loop (R146): with an id left the scan stands between two of its PINGs in phase SCAN, else it
ends with its flag and its log. It belongs to the step before it, which has the transport call (R6, log 7). -/
def scanNext (s : State) : State :=
  if s.D.scanId.toNat < s.D.scanEnd.toNat then { s with D := { s.D with phase := .scan } }
  else endOp (.ok .none (.bool s.D.scanFound)) s.D.scanLog s

/-- VALIDATE's test (R96). -/
def validFrame (frame : List Byte) : Bool :=
  match frame with
  | m1 :: m2 :: id :: length :: rest =>
    decide (2 ≤ rest.length) && m1 == Config.marker && m2 == Config.marker &&
      length.toNat == rest.length && sum8 (id :: length :: rest) == 0xFF
  | _ => false

/-- ENCODE's writes (R97): TXBUF bytes `0 .. n+5` and `D.txlen`. -/
def loadTx (frame : List Byte) (s : State) : State :=
  { s with D := { s.D with
      txbuf := Buffer.store s.D.txbuf 0 frame
      txlen := BitVec.ofNat 9 frame.length } }

/-- An encoded frame stands in TXBUF and the dispatcher is about to hand it over (R124, R125). -/
def launch (activity : Activity) (frame : List Byte) (s : State) : State :=
  let s := loadTx frame s
  { s with D := { s.D with phase := .tx, activity := activity } }

/-- The start of every dispatcher operation (R124, R125): ENCODE, whose errors end it before any transport
call, then phase TX. -/
def startCommand (activity : Activity) (id : Byte) (c : Cmd) (payload : List Byte) (s : State) :
    StepOutcome :=
  match encodeCommand s.params id c payload with
  | .error k => .next (raise (.validation k) s)
  | .ok frame => .next (launch activity frame s)

end Sys2Proof.Machine
end

