-- ==== Sys2Proof/Machine/Codec.lean ====
section
/-! DEFINITION. The FrameCodec's operations (40_codec.md). -/

namespace Sys2Proof.Machine

/-- CHECKSUM (R93). -/
def execChecksum (bytes : List Byte) (s : State) : StepOutcome :=
  accept s fun s => .next (succeed .none (.byte (checksumOf bytes)) s)

/-- VALIDATE (R96). -/
def execValidate (frame : List Byte) (s : State) : StepOutcome :=
  accept s fun s => .next (succeed .none (.bool (validFrame frame)) s)

/-- ENCODE (R97, R98): F_ILLEGAL_OP for `cmd = 7`, then the frame's own checks. -/
def execEncode (id : Byte) (cmd : BitVec 3) (payload : List Byte) (s : State) : StepOutcome :=
  accept s fun s =>
    match cmdOfSelector cmd with
    | none => .next (raise (.fault .illegalOp) s)
    | some c => match encodeCommand s.params id c payload with
      | .error k => .next (raise (.validation k) s)
      | .ok frame => .next (succeed .none (.bytes frame) (loadTx frame s))

end Sys2Proof.Machine
end

