-- ==== Sys2Proof/Machine/Commands.lean ====
section
/-! DEFINITION. The dispatcher's host operations (42_dispatcher.md): each is accepted in IDLE, checks its
operands and leaves its frame in TXBUF with phase TX; SCAN sets its registers and stands before its first PING.
What follows stands in Frames.lean and Exchange.lean. -/

namespace Sys2Proof.Machine

/-- PING (R129). It is not short-circuited for BROADCAST_ID (R130). -/
def execPing (id : Byte) (s : State) : StepOutcome :=
  accept s (startCommand .ping id .ping [])

/-- READ (R131). It is not short-circuited for BROADCAST_ID (R130). -/
def execRead (id offset count : Byte) (s : State) : StepOutcome :=
  accept s (startCommand .read id .read [offset, count])

/-- WRITE (R133). -/
def execWrite (id offset : Byte) (data : List Byte) (s : State) : StepOutcome :=
  accept s (startCommand .write id .write (offset :: data))

/-- REG_WRITE (R135). -/
def execRegWrite (id offset : Byte) (data : List Byte) (s : State) : StepOutcome :=
  accept s (startCommand .regWrite id .regWrite (offset :: data))

/-- RESET (R137): it resets the device, not this block (R138). -/
def execResetDevice (id : Byte) (s : State) : StepOutcome :=
  accept s (startCommand .reset id .reset [])

/-- ACTION (R139), always to BROADCAST_ID. -/
def execAction (s : State) : StepOutcome :=
  accept s fun s => startCommand .action s.params.broadcastId .action [] s

/-- SYNC_WRITE (R141 to R145), always to BROADCAST_ID. -/
def execSyncWrite (ids : List Byte) (offset : Byte) (values : List (List Byte)) (s : State) :
    StepOutcome :=
  accept s fun s =>
    match syncCheck ids values with
    | some k => .next (raise (.validation k) s)
    | none =>
      startCommand .syncWrite s.params.broadcastId .syncWrite (syncPayload offset ids values) s

/-- SCAN's registers before its loop (R146). -/
def scanInit (startId : Byte) (count : Nat) (s : State) : State :=
  { s with D := { s.D with
    scanEnd := BitVec.ofNat 9 (scanEndOf s.params startId count)
    scanId := startId
    scanFound := false
    scanLog := []
    activity := .scan } }

/-- SCAN (R146): its registers are written, then the loop begins; an empty range ends it at once. -/
def execScan (startId : Byte) (count : Nat) (s : State) : StepOutcome :=
  accept s fun s => .next (scanNext (scanInit startId count s))

end Sys2Proof.Machine
end

