-- ==== Sys2Proof/Machine/Frames.lean ====
section
/-! DEFINITION. The command frames (30_encoding.md R71): what the block does with the frame it has fetched from
TXBUF. It hands the frame to the transport, and either clears the parser and waits for a reply (`xfer`, R124)
or ends the operation (`send`, R125). -/

namespace Sys2Proof.Machine

/-- The transmission of a frame in phase TX, the rest of `xfer` or `send` up to the next transport call. The
block holds no command frame in another phase (log 9). -/
def transmit (id : Byte) (c : Cmd) (payload : List Byte) (awaitReply : Bool) (s : State) : StepOutcome :=
  if s.D.phase = .tx then
    let s := txWrite (buildFrame id (s.params.code c) payload) s
    if awaitReply then .next { s with P := s.P.cleared, D := { s.D with phase := .rx } }
    else .next (succeed .none .empty s)
  else .refused .frameOutsideTx

/-- CMD_PING (R72, R129): a reply is awaited, from BROADCAST_ID too (R130). -/
def execCmdPing (id : Byte) (s : State) : StepOutcome :=
  transmit id .ping [] true s

/-- CMD_READ (R73, R131): a reply is awaited, from BROADCAST_ID too (R130). -/
def execCmdRead (id offset count : Byte) (s : State) : StepOutcome :=
  transmit id .read [offset, count] true s

/-- CMD_WRITE (R74, R133, R134). -/
def execCmdWrite (id offset : Byte) (data : List Byte) (s : State) : StepOutcome :=
  transmit id .write (offset :: data) (id != s.params.broadcastId) s

/-- CMD_REG_WRITE (R75, R134, R135). -/
def execCmdRegWrite (id offset : Byte) (data : List Byte) (s : State) : StepOutcome :=
  transmit id .regWrite (offset :: data) (id != s.params.broadcastId) s

/-- CMD_ACTION (R76, R139): never a reply. -/
def execCmdAction (s : State) : StepOutcome :=
  transmit s.params.broadcastId .action [] false s

/-- CMD_RESET (R77, R134, R137). -/
def execCmdReset (id : Byte) (s : State) : StepOutcome :=
  transmit id .reset [] (id != s.params.broadcastId) s

/-- CMD_SYNC_WRITE (R78, R141): never a reply. -/
def execCmdSyncWrite (offset : Byte) (ids : List Byte) (values : List (List Byte)) (s : State) :
    StepOutcome :=
  transmit s.params.broadcastId .syncWrite (syncPayload offset ids values) false s

end Sys2Proof.Machine
end

