-- ==== Sys2Proof/Machine/PacketParser.lean ====
section
/-! DEFINITION. The PacketParser (41_parser.md): its next-state function, one case per state, and the
operations the host reaches it through. -/

namespace Sys2Proof.Machine

/-- `npay(P)`: the payload bytes the length byte declares. -/
def npay (P : Parser) : Nat :=
  P.length.toNat - 2

/-- State SEEK1 (R104). -/
def pstepSeek1 (P : Parser) (b : Byte) : Parser :=
  if b = Config.marker then { P with state := .seek2 } else P

/-- State SEEK2 (R105). -/
def pstepSeek2 (p : Params) (P : Parser) (b : Byte) : Parser :=
  if b = Config.marker then { P with state := .id }
  else match p.seek2Mismatch with
    | .toSeek1 => { P with state := .seek1 }
    | .staySeek2 => P

/-- State ID (R106). -/
def pstepId (P : Parser) (b : Byte) : Parser :=
  { P with devId := b, sum := b, state := .len }

/-- State LEN (R107). -/
def pstepLen (p : Params) (P : Parser) (b : Byte) : Parser :=
  let P := { P with length := b, sum := P.sum + b, idx := 0 }
  if 2 ≤ b.toNat then { P with state := .status }
  else match p.shortLengthPolicy with
    | .failMalformed => { P with code := .malformed, state := .failed }
    | .zeroPayload => { P with state := .status }

/-- State STATUS (R108). -/
def pstepStatus (P : Parser) (b : Byte) : Parser :=
  { P with
    statusRaw := b
    sum := P.sum + b
    state := if npay P = 0 then .check else .payload }

/-- State PAYLOAD (R109). No run reaches an index outside PBUF (R13). -/
def pstepPayload (P : Parser) (b : Byte) : Except Fault Parser :=
  if P.idx.toNat < Config.payloadCapacity then
    .ok { P with
      pbuf := Buffer.set P.pbuf P.idx.toNat b
      idx := P.idx + 1
      sum := P.sum + b
      state := if P.idx.toNat + 1 = npay P then .check else .payload }
  else .error .bufferIndex

/-- State CHECK (R110): a device fault in the status byte still completes. -/
def pstepCheck (p : Params) (P : Parser) (b : Byte) : Parser :=
  let s := P.sum + b
  if s = 0xFF then { P with sum := s, code := resolve p P.statusRaw, state := .complete }
  else { P with sum := s, code := .checksum, state := .failed }

/-- `pstep(P, b)` (R104 to R110). It is not defined on a terminal parser (R111). -/
def pstep (p : Params) (P : Parser) (b : Byte) : Except Fault Parser :=
  match P.state with
  | .seek1 => .ok (pstepSeek1 P b)
  | .seek2 => .ok (pstepSeek2 p P b)
  | .id => .ok (pstepId P b)
  | .len => .ok (pstepLen p P b)
  | .status => .ok (pstepStatus P b)
  | .payload => pstepPayload P b
  | .check => .ok (pstepCheck p P b)
  | .complete => .error .parserTerminal
  | .failed => .error .parserTerminal

/-- Bytes fed one after another, as long as the parser takes them. -/
def feed (p : Params) : Parser → List Byte → Except Fault Parser
  | P, [] => .ok P
  | P, b :: bs => match pstep p P b with
    | .ok P' => feed p P' bs
    | .error f => .error f

/-- PARSER_CLEAR (R114). -/
def execParserClear (s : State) : StepOutcome :=
  accept s fun s => .next (succeed .none .empty { s with P := s.P.cleared })

/-- PROCESS_BYTE (R103). -/
def execProcessByte (b : Byte) (s : State) : StepOutcome :=
  accept s fun s =>
    if s.P.done then .next (raise (.fault .parserDone) s)
    else match pstep s.params s.P b with
      | .ok P' => .next (succeed P'.code (.byte (outcome P').tag) { s with P := P' })
      | .error f => .fault f

/-- The guard of the accessors: legal only in COMPLETE (R119 to R122). -/
def whenComplete (s : State) (op : State → StepOutcome) : StepOutcome :=
  accept s fun s =>
    if s.P.isComplete then op s else .next (raise (.fault .notComplete) s)

/-- GET_DEVICE_ID (R119). -/
def execGetDeviceId (s : State) : StepOutcome :=
  whenComplete s fun s => .next (succeed .none (.byte s.P.devId) s)

/-- GET_ERROR_CODE (R120). -/
def execGetErrorCode (s : State) : StepOutcome :=
  whenComplete s fun s => .next (succeed s.P.code .empty s)

/-- The payload of the completed frame: PBUF bytes `0 .. P.idx - 1` (R121). -/
def payloadOf (P : Parser) : Except Fault (List Byte) :=
  Buffer.load Config.payloadCapacity P.pbuf P.idx.toNat

/-- GET_PAYLOAD (R121). -/
def execGetPayload (s : State) : StepOutcome :=
  whenComplete s fun s =>
    match payloadOf s.P with
    | .ok bs => .next (succeed .none (.bytes bs) s)
    | .error f => .fault f

/-- GET_STATUS_RAW (R122). -/
def execGetStatusRaw (s : State) : StepOutcome :=
  whenComplete s fun s => .next (succeed .none (.byte s.P.statusRaw) s)

end Sys2Proof.Machine
end

