-- ==== Sys2Proof/Machine/Exchange.lean ====
section
/-! DEFINITION. The steps of the dispatcher that no new operation starts: one iteration of the receive loop of
`xfer` (R124) in phase RX, and the PING of SCAN's loop (R146) in phase SCAN. Each makes one transport call (R6). -/

namespace Sys2Proof.Machine

/-- The registers after one PING of a SCAN (R146). -/
def scanLogged (found : Bool) (s : State) : State :=
  { s with D := { s.D with
    scanLog := s.D.scanLog ++ [⟨s.D.scanId, found⟩]
    scanFound := s.D.scanFound || found
    scanId := s.D.scanId + 1 } }

/-- One PING of a SCAN is resolved (R146): its event is logged, and the scan goes on or ends. -/
def scanResolved (found : Bool) (s : State) : State :=
  scanNext (scanLogged found s)

/-- A bus error ends the operation (R126), SCAN too, which keeps its log (R148). -/
def busError (c : ErrorCode) (s : State) : State :=
  endOp (.error (.bus c)) (activityLog s) s

/-- NONE before the parser is terminal (R126, R153): TIMEOUT, which PING takes as `false` (R129). -/
def timedOut (s : State) : State :=
  match s.D.activity with
  | .ping => succeed .none (.bool false) s
  | .scan => scanResolved false s
  | _ => busError .timeout s

/-- A reply with status NONE (R129, R131, R133 to R137). -/
def replied (s : State) : StepOutcome :=
  match s.D.activity with
  | .ping => .next (succeed .none (.bool true) s)
  | .scan => .next (scanResolved true s)
  | .read => match payloadOf s.P with
    | .ok bs => .next (succeed .none (.bytes bs) s)
    | .error f => .fault f
  | _ => .next (succeed .none .empty s)

/-- What follows one byte of the reply, the parser having taken it (R124). -/
def afterByte (s : State) : StepOutcome :=
  match outcome s.P with
  | .notDone => .next s
  | .failed c => .next (busError c s)
  | .complete => if s.P.code = .none then replied s else .next (busError s.P.code s)

/-- One iteration of `xfer`'s loop (R124). -/
def receive (s : State) : StepOutcome :=
  match rxRead s with
  | (none, s) => .next (timedOut s)
  | (some b, s) => match pstep s.params s.P b with
    | .ok P' => afterByte { s with P := P' }
    | .error f => .fault f

/-- The next PING of SCAN's loop (R146): ENCODE, TxWrite and the cleared parser (R124), in one step with its one
transport call (R6, log 7). A PING that ENCODE refuses ends the scan with that error (R129, R148); the range of R147
holds no such id. -/
def scanTurn (s : State) : StepOutcome :=
  match encodeCommand s.params s.D.scanId .ping [] with
  | .ok frame => transmit s.D.scanId .ping [] true (launch .scan frame s)
  | .error k => .next (endOp (.error (.validation k)) s.D.scanLog s)

end Sys2Proof.Machine
end

