-- ==== Sys2Proof/Machine/Reserved.lean ====
section
/-! DEFINITION. The reserved selectors of the host interface (30_encoding.md R89). -/

namespace Sys2Proof.Machine

/-- A reserved selector: Fault(F_ILLEGAL_OP), after F_BUSY (R89, R123). -/
def illegalOp (s : State) : StepOutcome :=
  accept s fun s => .next (raise (.fault .illegalOp) s)

/-- Selector 0x06, reserved (R89). -/
def execReserved06 (s : State) : StepOutcome :=
  illegalOp s

/-- Selector 0x07, reserved (R89). -/
def execReserved07 (s : State) : StepOutcome :=
  illegalOp s

/-- Selector 0x0B, reserved (R89). -/
def execReserved0b (s : State) : StepOutcome :=
  illegalOp s

/-- Selector 0x0C, reserved (R89). -/
def execReserved0c (s : State) : StepOutcome :=
  illegalOp s

/-- Selector 0x0D, reserved (R89). -/
def execReserved0d (s : State) : StepOutcome :=
  illegalOp s

/-- Selector 0x0E, reserved (R89). -/
def execReserved0e (s : State) : StepOutcome :=
  illegalOp s

/-- Selector 0x0F, reserved (R89). -/
def execReserved0f (s : State) : StepOutcome :=
  illegalOp s

/-- Selector 0x18, reserved (R89). -/
def execReserved18 (s : State) : StepOutcome :=
  illegalOp s

/-- Selector 0x19, reserved (R89). -/
def execReserved19 (s : State) : StepOutcome :=
  illegalOp s

/-- Selector 0x1A, reserved (R89). -/
def execReserved1a (s : State) : StepOutcome :=
  illegalOp s

/-- Selector 0x1B, reserved (R89). -/
def execReserved1b (s : State) : StepOutcome :=
  illegalOp s

/-- Selector 0x1C, reserved (R89). -/
def execReserved1c (s : State) : StepOutcome :=
  illegalOp s

/-- Selector 0x1D, reserved (R89). -/
def execReserved1d (s : State) : StepOutcome :=
  illegalOp s

/-- Selector 0x1E, reserved (R89). -/
def execReserved1e (s : State) : StepOutcome :=
  illegalOp s

/-- Selector 0x1F, reserved (R89). -/
def execReserved1f (s : State) : StepOutcome :=
  illegalOp s

end Sys2Proof.Machine
end

