-- ==== Sys2Proof/Machine/Dispatch.lean ====
section
/-! DEFINITION. The meaning of every instruction, one arm per constructor of Instr. -/

namespace Sys2Proof.Machine

def exec (i : Instr) (s : State) : Host.Outcome State Fault Refusal :=
  match i with
  | .cmdPing id => Sys2Proof.Machine.execCmdPing id s
  | .cmdRead id offset count => Sys2Proof.Machine.execCmdRead id offset count s
  | .cmdWrite id offset data => Sys2Proof.Machine.execCmdWrite id offset data s
  | .cmdRegWrite id offset data => Sys2Proof.Machine.execCmdRegWrite id offset data s
  | .cmdAction => Sys2Proof.Machine.execCmdAction s
  | .cmdReset id => Sys2Proof.Machine.execCmdReset id s
  | .cmdSyncWrite offset ids values => Sys2Proof.Machine.execCmdSyncWrite offset ids values s
  | .parserClear => Sys2Proof.Machine.execParserClear s
  | .processByte b => Sys2Proof.Machine.execProcessByte b s
  | .getDeviceId => Sys2Proof.Machine.execGetDeviceId s
  | .getErrorCode => Sys2Proof.Machine.execGetErrorCode s
  | .getPayload => Sys2Proof.Machine.execGetPayload s
  | .getStatusRaw => Sys2Proof.Machine.execGetStatusRaw s
  | .checksum bytes => Sys2Proof.Machine.execChecksum bytes s
  | .validate frame => Sys2Proof.Machine.execValidate frame s
  | .encodeOp id cmd payload => Sys2Proof.Machine.execEncode id cmd payload s
  | .ping id => Sys2Proof.Machine.execPing id s
  | .read id offset count => Sys2Proof.Machine.execRead id offset count s
  | .write id offset data => Sys2Proof.Machine.execWrite id offset data s
  | .regWrite id offset data => Sys2Proof.Machine.execRegWrite id offset data s
  | .resetDevice id => Sys2Proof.Machine.execResetDevice id s
  | .action => Sys2Proof.Machine.execAction s
  | .syncWrite ids offset values => Sys2Proof.Machine.execSyncWrite ids offset values s
  | .scan startId count => Sys2Proof.Machine.execScan startId count s
  | .reserved06 => Sys2Proof.Machine.execReserved06 s
  | .reserved07 => Sys2Proof.Machine.execReserved07 s
  | .reserved0b => Sys2Proof.Machine.execReserved0b s
  | .reserved0c => Sys2Proof.Machine.execReserved0c s
  | .reserved0d => Sys2Proof.Machine.execReserved0d s
  | .reserved0e => Sys2Proof.Machine.execReserved0e s
  | .reserved0f => Sys2Proof.Machine.execReserved0f s
  | .reserved18 => Sys2Proof.Machine.execReserved18 s
  | .reserved19 => Sys2Proof.Machine.execReserved19 s
  | .reserved1a => Sys2Proof.Machine.execReserved1a s
  | .reserved1b => Sys2Proof.Machine.execReserved1b s
  | .reserved1c => Sys2Proof.Machine.execReserved1c s
  | .reserved1d => Sys2Proof.Machine.execReserved1d s
  | .reserved1e => Sys2Proof.Machine.execReserved1e s
  | .reserved1f => Sys2Proof.Machine.execReserved1f s

end Sys2Proof.Machine
end

