-- ==== Sys2Proof/Machine/Fetch.lean ====
section
/-! DEFINITION. Where the next step comes from: the host's schedule while the block may take an operation,
the frame in TXBUF in phase TX, the dispatcher's own loop in phases RX and SCAN (R5, R6, R21; log 7). -/

namespace Sys2Proof.Machine

/-- What the next step is. -/
inductive Turn where
  /-- An encoded instruction: a host request, or the frame in TXBUF. -/
  | run (c : Code)
  /-- The reset input is asserted (R173). -/
  | reset
  /-- One RxRead of the exchange (R124). -/
  | receive
  /-- The next PING of a SCAN (R146). -/
  | scan
  /-- The block is IDLE and the host issues nothing: it waits (R49, R173; log 16). -/
  | wait
deriving DecidableEq, Repr

/-- The frame `TxWrite` hands over: TXBUF bytes `0 .. D.txlen - 1` (R48). -/
def txFrame (s : State) : Except Fault (List Byte) :=
  Buffer.load Config.txCapacity s.D.txbuf s.D.txlen.toNat

/-- The core's own next step, by phase (R31). -/
def coreTurn (s : State) : Except Fault Turn :=
  match s.D.phase with
  | .idle => .ok .wait
  | .tx => match txFrame s with
    | .ok frame => .ok (.run (.frame frame))
    | .error f => .error f
  | .rx => .ok .receive
  | .scan => .ok .scan

/-- The host's act as a step. -/
def hostTurn : HostAct → Turn
  | .op r => .run (.request r)
  | .rst => .reset

/-- The next step, and the state with the host's schedule moved on (log 4). -/
def fetch (s : State) : Except Fault (Turn × State) :=
  let withHost (es : List HostEvent) : State := { s with env := { s.env with host := es } }
  let core (s : State) : Except Fault (Turn × State) :=
    match coreTurn s with
    | .ok t => .ok (t, s)
    | .error f => .error f
  match s.env.host with
  | [] => core s
  | ⟨none, act⟩ :: rest =>
    if s.D.phase = .idle then .ok (hostTurn act, withHost rest) else core s
  | ⟨some 0, act⟩ :: rest => .ok (hostTurn act, withHost rest)
  | ⟨some (n + 1), act⟩ :: rest => core (withHost (⟨some n, act⟩ :: rest))

/-- The activity whose frame carries a command. -/
def activityOf : Cmd → Activity
  | .ping => .ping
  | .read => .read
  | .write => .write
  | .regWrite => .regWrite
  | .action => .action
  | .reset => .reset
  | .syncWrite => .syncWrite

/-- The state whose next step runs this encoded instruction: a request is put first on the host's schedule, to
be issued at once; a frame is put into TXBUF with phase TX and the host silent (log 10, log 17). -/
def placeCode (s : State) : Code → State
  | .request r => { s with env := { s.env with host := ⟨some 0, .op r⟩ :: s.env.host } }
  | .frame bytes => { s with
      D := { s.D with
        phase := .tx
        activity := ((bytes[4]?).bind (commandOf s.params)).elim .none activityOf
        txbuf := Buffer.store s.D.txbuf 0 bytes
        txlen := BitVec.ofNat 9 bytes.length }
      env := { s.env with host := [] } }

end Sys2Proof.Machine
end

