-- ==== Sys2Proof/Machine/Step.lean ====
section
/-! DEFINITION. One step of the machine, and the placing of one instruction where the step fetches it. -/

namespace Sys2Proof.Machine

/-- One step: fetch, decode and run an instruction, or one transport call of the
dispatcher's own loops. -/
def step (s : State) : Host.Outcome State Fault Refusal :=
  match fetch s with
  | .error f => .fault f
  | .ok (.run c, s) => match decode s.params c with
    | .ok i => exec i s
    | .error e => .refused (.undecodable e)
  | .ok (.reset, s) => .next (coreReset s)
  | .ok (.receive, s) => receive s
  | .ok (.scan, s) => scanTurn s
  | .ok (.wait, s) => .next s

/-- `s` with the instruction of this word where the next step fetches it. -/
def State.withFetchWord (s : State) (nbits w : Nat) : State :=
  match codeOfWord s.params nbits w with
  | .ok c => placeCode s c
  | .error _ => s

end Sys2Proof.Machine
end

