-- ==== Sys2Proof/Safety.lean ====
section
/-! DEFINITION. The terms the claims are made in: a run, what counts as a run without misuse (R156), the end of a
run (R189), and the invariant of the machine. -/

namespace Sys2Proof.Machine

/-- `n` steps, stopping at the first fault or refusal. -/
def run : Nat → State → StepOutcome
  | 0, s => .next s
  | n + 1, s => match step s with
    | .next s' => run n s'
    | .fault f => .fault f
    | .refused r => .refused r

/-- The reserved selectors of R89. -/
def reservedInstrs : List Instr :=
  [.reserved06, .reserved07, .reserved0b, .reserved0c, .reserved0d, .reserved0e, .reserved0f, .reserved18,
    .reserved19, .reserved1a, .reserved1b, .reserved1c, .reserved1d, .reserved1e, .reserved1f]

/-- No operation of the run so far was refused with a FAULT result: the premise R156 asks of a claim about a
program. -/
abbrev NoOperationFaulted (s : State) : Prop :=
  ∀ r ∈ s.env.replies, r.result.kindBits ≠ 3

/-- The run has ended (R189): the host has nothing more to issue and the block is IDLE. -/
abbrev RunEnded (s : State) : Prop :=
  s.env.host = [] ∧ s.D.phase = .idle

/-- Nothing the host has scheduled (log 4) is due while an operation is in progress: there is nothing, or the next
entry waits for IDLE (R177). -/
abbrev NothingDue (es : List HostEvent) : Prop :=
  ∀ e ∈ es.head?, e.due = none

/-! ### The invariant -/

/-- The sum of the frame bytes held in the registers: id, length, status and the payload bytes stored so far
(R113). -/
def heldSum (P : Parser) : Byte :=
  P.devId + P.length + P.statusRaw + sum8 (Buffer.slice P.pbuf 0 P.idx.toNat)

/-- What the parser's registers hold in each state (R22 to R29, R42, R104 to R113). -/
def ParserRegs (p : Params) (P : Parser) : Prop :=
  match P.state with
  | .seek1 | .seek2 | .id => P = { P.cleared with state := P.state }
  | .len => P.code = .notDone ∧ P.idx = 0 ∧ P.length = 0 ∧ P.statusRaw = 0 ∧ P.sum = heldSum P
  | .status => P.code = .notDone ∧ P.idx = 0 ∧ P.statusRaw = 0 ∧ P.sum = heldSum P
  | .payload => P.code = .notDone ∧ P.idx.toNat < npay P ∧ P.sum = heldSum P
  | .check => P.code = .notDone ∧ P.idx.toNat = npay P ∧ P.sum = heldSum P
  | .complete => P.code = resolve p P.statusRaw ∧ P.idx.toNat = npay P ∧ P.sum = 0xFF
  | .failed =>
    (P.code = .malformed ∧ P.idx = 0 ∧ P.length.toNat < 2 ∧ p.shortLengthPolicy = .failMalformed) ∨
      (P.code = .checksum ∧ P.idx.toNat = npay P ∧ P.sum ≠ 0xFF)

/-- The parser's invariant: PBUF in canonical form, the registers as their state asks. -/
def ParserInv (p : Params) (P : Parser) : Prop :=
  Buffer.Wf Config.payloadCapacity P.pbuf ∧ ParserRegs p P

/-- The frame an operation in progress transmits in phase TX (R129 to R141). -/
inductive Carries : Activity → Instr → Prop
  | ping (id : Byte) : Carries .ping (.cmdPing id)
  | read (id offset count : Byte) : Carries .read (.cmdRead id offset count)
  | write (id offset : Byte) (data : List Byte) : Carries .write (.cmdWrite id offset data)
  | regWrite (id offset : Byte) (data : List Byte) : Carries .regWrite (.cmdRegWrite id offset data)
  | reset (id : Byte) : Carries .reset (.cmdReset id)
  | action : Carries .action .cmdAction
  | syncWrite (offset : Byte) (ids : List Byte) (values : List (List Byte)) :
      Carries .syncWrite (.cmdSyncWrite offset ids values)

/-- What each phase means (R31). -/
def PhaseInv (s : State) : Prop :=
  match s.D.phase with
  | .idle => s.D.activity = .none
  | .tx => ∃ frame i, Buffer.load Config.txCapacity s.D.txbuf s.D.txlen.toNat = .ok frame ∧
      decodeFrame s.params frame = .ok i ∧ Carries s.D.activity i
  | .rx => s.P.done = false ∧ s.D.activity ∈ [.ping, .read, .write, .regWrite, .reset, .scan]
  | .scan => s.D.activity = .scan

/-- The scan registers while a SCAN is in progress (R35, R146, R147, R149): the id in turn lies in the range, the range
below the broadcast id, the ids logged so far rise strictly and lie below the one in turn, and the flag says whether
one answered. -/
def ScanInv (s : State) : Prop :=
  s.D.activity = .scan →
    s.D.scanEnd.toNat ≤ min s.params.broadcastId.toNat 254 ∧
    s.D.scanId.toNat < s.D.scanEnd.toNat ∧
    s.D.scanLog.Pairwise (fun x y => x.id.toNat < y.id.toNat) ∧
    (∀ e ∈ s.D.scanLog, e.id.toNat < s.D.scanId.toNat) ∧
    s.D.scanFound = s.D.scanLog.any (·.found)

/-- The codes a bus error carries (R126, R151): never NONE, never NOT_DONE. -/
def ResultInv (r : Result) : Prop :=
  r ≠ .error (.bus .none) ∧ r ≠ .error (.bus .notDone)

/-- The invariant of the machine: every state a run reaches meets it. -/
structure Inv (s : State) : Prop where
  params : s.params.Valid
  parser : ParserInv s.params s.P
  txbuf : Buffer.Wf Config.txCapacity s.D.txbuf
  txlen : s.D.txlen.toNat ≤ Config.txCapacity
  verbosity : s.D.verbosity = s.params.verbosityInit
  phase : PhaseInv s
  scan : ScanInv s
  result : ResultInv s.D.result

end Sys2Proof.Machine
end

