-- ==== Sys2Proof/Certificates/Slice0/Obligations.lean ====
section
/-! DEFINITION. The statements for the provers, each a `def Obligations.<Name> : Prop`. The few terms the
statements share, written from the spec's own text, come first. -/

namespace Sys2Proof.Spec

open Sys2Proof.Machine

/-- `255 - (sum mod 256)` on natural numbers (R67, R93). -/
def checksum (body : List Byte) : Byte :=
  BitVec.ofNat 8 (255 - (body.map BitVec.toNat).sum % 256)

/-- The frame layout of R65 with the length of R66 and the checksum of R67. -/
def frame (id code : Byte) (payload : List Byte) : List Byte :=
  0xFF :: 0xFF :: id :: BitVec.ofNat 8 (payload.length + 2) :: code :: payload ++
    [checksum (id :: BitVec.ofNat 8 (payload.length + 2) :: code :: payload)]

/-- A target of the encoder's id domain (R45). -/
abbrev Target (s : State) (id : Byte) : Prop :=
  id.toNat ≤ 253 ∨ id = s.params.broadcastId

/-- An operation has ended with this result: IDLE, the result written and handed to the host, with SCAN's log
where there is one, and nothing else changed (R123, R161). `replies` and `activity` are the model's own fields
(log 4, log 8). -/
def ended (s : State) (r : Result) (log : List ScanEvent) : State :=
  { s with
    D := { s.D with phase := .idle, activity := .none, result := r }
    env := { s.env with replies := s.env.replies ++ [⟨r, log⟩] } }

/-- A command frame stands in TXBUF with phase TX, and nothing else changed (R97, R124, R125). `activity` is the
model's own field (log 8). -/
def started (s : State) (a : Activity) (f : List Byte) : State :=
  { s with D := { s.D with
      phase := .tx
      activity := a
      txbuf := Buffer.store s.D.txbuf 0 f
      txlen := BitVec.ofNat 9 f.length } }

/-- A frame has been handed over and its reply is awaited with a cleared parser (R114, R124). `sent` is the model's
own field (log 4). -/
def awaiting (s : State) (f : List Byte) : State :=
  { s with
    P := { s.P with state := .seek1, devId := 0, length := 0, statusRaw := 0, idx := 0, sum := 0, code := .notDone }
    D := { s.D with phase := .rx }
    env := { s.env with sent := s.env.sent ++ [f] } }

/-- SCAN's loop test (R146): with an id left the scan stands between two of its pings in phase SCAN, else it ends with
its flag and its log. That the test is part of the step before it is log 7. -/
def scanGoesOn (s : State) : State :=
  if s.D.scanId.toNat < s.D.scanEnd.toNat then { s with D := { s.D with phase := .scan } }
  else ended s (.ok .none (.bool s.D.scanFound)) s.D.scanLog

/-- One PING of a SCAN is resolved (R146): its event is logged, the flag and the id follow, and the loop goes on. -/
def scanPinged (s : State) (found : Bool) : State :=
  scanGoesOn { s with D := { s.D with
    scanLog := s.D.scanLog ++ [⟨s.D.scanId, found⟩]
    scanFound := s.D.scanFound || found
    scanId := s.D.scanId + 1 } }

/-- A byte has been taken by the parser through PROCESS_BYTE (R103): the parser is now `P`. -/
def processed (s : State) (P : Parser) (tag : Byte) : State :=
  ended { s with P := P } (.ok P.code (.byte tag)) []

/-- The host's schedule, the model's own field (log 4), begins with this operation, issued when the block is IDLE;
what follows it, if anything, waits for the operation's end (R177). -/
abbrev Issues (s : State) (i : Instr) (later : List HostEvent) : Prop :=
  i.isFrame = false ∧ (∃ r, encode s.params i = .request r ∧ s.env.host = ⟨none, .op r⟩ :: later) ∧
    NothingDue later

/-- The host's next act is the reset input, and it is asserted in this step (R173; the schedule is log 4). -/
def ResetAsserted (s : State) (later : List HostEvent) : Prop :=
  s.env.host = ⟨some 0, .rst⟩ :: later ∨ (s.D.phase = .idle ∧ s.env.host = ⟨none, .rst⟩ :: later)

/-- The five operations that wait for a reply, addressed to `id` (R124, R129 to R137), with the frame each
sends. WRITE, REG_WRITE and RESET wait only when `id` is not BROADCAST_ID. -/
inductive Addressed (p : Params) (id : Byte) : Instr → List Byte → Prop
  | ping : Addressed p id (.ping id) (frame id p.cmdPing [])
  | read (offset count : Byte) : Addressed p id (.read id offset count) (frame id p.cmdRead [offset, count])
  | write (offset : Byte) (data : List Byte) : id ≠ p.broadcastId → data.length ≤ 252 →
      Addressed p id (.write id offset data) (frame id 0x03 (offset :: data))
  | regWrite (offset : Byte) (data : List Byte) : id ≠ p.broadcastId → data.length ≤ 252 →
      Addressed p id (.regWrite id offset data) (frame id p.cmdRegWrite (offset :: data))
  | reset : id ≠ p.broadcastId → Addressed p id (.resetDevice id) (frame id p.cmdReset [])

/-- The operations that read no reply (R150), with the frame each sends. -/
inductive Broadcast (p : Params) : Instr → List Byte → Prop
  | write (offset : Byte) (data : List Byte) : data.length ≤ 252 →
      Broadcast p (.write p.broadcastId offset data) (frame p.broadcastId 0x03 (offset :: data))
  | regWrite (offset : Byte) (data : List Byte) : data.length ≤ 252 →
      Broadcast p (.regWrite p.broadcastId offset data) (frame p.broadcastId p.cmdRegWrite (offset :: data))
  | reset : Broadcast p (.resetDevice p.broadcastId) (frame p.broadcastId p.cmdReset [])
  | action : Broadcast p .action (frame p.broadcastId p.cmdAction [])
  | syncWrite (ids : List Byte) (offset : Byte) (values : List (List Byte)) (k : Nat) :
      ids.length = values.length → ids ≠ [] → (∀ v ∈ values, v.length = k) → 2 + ids.length * (1 + k) ≤ 253 →
      Broadcast p (.syncWrite ids offset values)
        (frame p.broadcastId p.cmdSyncWrite
          (offset :: BitVec.ofNat 8 k :: (ids.zip values).flatMap fun e => e.1 :: e.2))

/-- What a timeout gives each addressed operation (R126, R129). -/
def timeoutResult : Instr → Result
  | .ping _ => .ok .none (.bool false)
  | _ => .error (.bus .timeout)

/-- What a reply with status NONE and this payload gives each addressed operation (R129 to R137). -/
def replyResult (payload : List Byte) : Instr → Result
  | .ping _ => .ok .none (.bool true)
  | .read _ _ _ => .ok .none (.bytes payload)
  | _ => .ok .none .empty

/-- What answers a PING of a scan: nothing, or a status frame with status 0 from any device, with any payload. -/
abbrev ScanAnswer := Option (Byte × List Byte)

/-- The transport's answers to the PINGs of a scan. -/
def scanAnswers (answers : List ScanAnswer) : List (Option Byte) :=
  answers.flatMap fun
    | none => [none]
    | some (device, payload) => (frame device 0 payload).map some

/-- The events of a scan that starts at an id. -/
def scanEvents : Nat → List ScanAnswer → List ScanEvent
  | _, [] => []
  | id, a :: rest => ⟨BitVec.ofNat 8 id, a.isSome⟩ :: scanEvents (id + 1) rest

/-- The PING frames of these events' ids, in their order. -/
def scanPings (p : Params) (events : List ScanEvent) : List (List Byte) :=
  events.map fun e => frame e.id p.cmdPing []

end Sys2Proof.Spec

open Sys2Proof Sys2Proof.Machine Sys2Proof.Spec

/-! ### Encodings -/

/-- Decoding the encoding of a well-formed instruction gives it back, for every instruction and every operand. The
request port, that the broadcast frames are instructions, and the id check of the decoder are the model's readings
(logs 6 and 9). -/
def Obligations.DecodeEncodeRoundTrip : Prop :=
  ∀ (p : Params) (i : Instr), p.Valid → wellFormed p i = true → decode p (encode p i) = .ok i

/-- A frame that decodes is, byte for byte, the encoding of the instruction read, which is well formed: no two frames
decode to one instruction, and no byte of a frame is ignored. That frames are decoded at all is the model's
reading (log 9). -/
def Obligations.DecodedFrameReencodes : Prop :=
  ∀ (p : Params) (f : List Byte) (i : Instr), decodeFrame p f = .ok i →
    i.isFrame = true ∧ wellFormed p i = true ∧ encode p i = .frame f

/-- Frames and requests written out from the spec's own examples decode to what they stand for. The request port is
log 6. -/
def Obligations.WrittenWordsDecode : Prop :=
  decodeFrame Params.default [0xFF, 0xFF, 0x01, 0x05, 0x03, 0x18, 0x01, 0x00, 0xDD] =
      .ok (.cmdWrite 0x01 0x18 [0x01, 0x00]) ∧
    decodeFrame Params.default [0xFF, 0xFF, 0xFE, 0x02, 0x05, 0xFA] = .ok .cmdAction ∧
    decodeFrame Params.default
        [0xFF, 0xFF, 0xFE, 0x0A, 0x83, 0x1E, 0x02, 0x01, 0x00, 0x02, 0x02, 0x00, 0x03, 0x4C] =
      .ok (.cmdSyncWrite 0x1E [0x01, 0x02] [[0x00, 0x02], [0x00, 0x03]]) ∧
    decodeRequest { op := 0x10, id := 0x01 } = .ping 0x01 ∧
    decodeRequest { op := 0x08, bytes := [0x01, 0x02] } = .checksum [0x01, 0x02] ∧
    decodeRequest { op := 0x01, b := 0xFF } = .processByte 0xFF

/-- A step whose fetch finds an encoded instruction that decodes to `i` is `exec` of `i` at the state the fetch
leaves. How a step is cut is log 7, where it fetches logs 4 and 9. -/
def Obligations.StepRunsTheDecodedInstruction : Prop :=
  ∀ (s t : State) (c : Code) (i : Instr), fetch s = .ok (.run c, t) → decode t.params c = .ok i →
    step s = exec i t

/-- Where a step takes its instruction from. In IDLE it takes the host's next operation off the schedule and runs it.
An operation due at once is taken and run in any phase, which is how a step meets F_BUSY. In phase TX, with no act of
the host due, the step runs the frame that stands in TXBUF and takes nothing off. In IDLE with an empty schedule it
waits: nothing changes. While the next act is due later, the step does what it does without a host, and the count
falls by one. The host's schedule is log 4, the frame in TXBUF as an instruction log 9, waiting log 16. -/
def Obligations.StepTakesItsInstruction : Prop :=
  (∀ (s : State) (r : Request) (rest : List HostEvent),
    s.D.phase = .idle → s.env.host = ⟨none, .op r⟩ :: rest →
      step s = exec (decodeRequest r) { s with env := { s.env with host := rest } }) ∧
  (∀ (s : State) (r : Request) (rest : List HostEvent), s.env.host = ⟨some 0, .op r⟩ :: rest →
    step s = exec (decodeRequest r) { s with env := { s.env with host := rest } }) ∧
  (∀ (s : State) (f : List Byte) (i : Instr),
    s.D.phase = .tx → NothingDue s.env.host →
      Buffer.load Config.txCapacity s.D.txbuf s.D.txlen.toNat = .ok f → decodeFrame s.params f = .ok i →
      step s = exec i s) ∧
  (∀ s : State, s.D.phase = .idle → s.env.host = [] → step s = .next s) ∧
  (∀ (s t : State) (n : Nat) (act : HostAct) (rest : List HostEvent), s.env.host = ⟨some (n + 1), act⟩ :: rest →
    step { s with env := { s.env with host := [] } } = .next t →
      step s = .next { t with env := { t.env with host := ⟨some n, act⟩ :: rest } })

/-- A selector is one of the reserved values exactly when its operation is a reserved one (R89). -/
def Obligations.ReservedSelectorsDecodeToReserved : Prop :=
  ∀ r : Request,
    (r.op.toNat ∈ [0x06, 0x07, 0x0B, 0x0C, 0x0D, 0x0E, 0x0F] ∨ 0x18 ≤ r.op.toNat) ↔
      decodeRequest r ∈ reservedInstrs

/-- The values of the parser states, the phases, the ErrorCodes and the validation and fault kinds are those of the
spec's tables (R22, R31, R81, R87, R88). -/
def Obligations.RegisterEncodings : Prop :=
  [ParserState.seek1, .seek2, .id, .len, .status, .payload, .check, .complete, .failed].map
      (fun x => x.bits.toNat) = [0, 1, 2, 3, 4, 5, 6, 7, 8] ∧
    [Phase.idle, .tx, .rx, .scan].map (fun x => x.bits.toNat) = [0, 1, 2, 3] ∧
    [ErrorCode.none, .inputVoltage, .angleLimit, .overheating, .range, .checksum, .overload, .instruction,
      .reserved, .notDone, .timeout, .malformed].map (fun x => x.bits.toNat) =
      [0x000, 0x001, 0x002, 0x004, 0x008, 0x010, 0x020, 0x040, 0x080, 0x100, 0x101, 0x103] ∧
    [ValidationKind.dim, .empty, .width, .tooLong, .id].map (fun x => x.bits.toNat) = [1, 2, 3, 4, 5] ∧
    [FaultKind.parserDone, .notComplete, .busy, .illegalOp].map (fun x => x.bits.toNat) = [1, 2, 3, 4]

/-! ### Buffers -/

/-- Bytes stored from an index on are read back there, and every other byte of the buffer reads as before. The buffers
as cells, with 0x00 read where there is none, are log 11. -/
def Obligations.StoredBytesReadBack : Prop :=
  ∀ (m : Buffer) (i j : Nat) (bs : List Byte),
    (∀ k (h : k < bs.length), Buffer.get (Buffer.store m i bs) (i + k) = bs[k]) ∧
    (j < i ∨ i + bs.length ≤ j → Buffer.get (Buffer.store m i bs) j = Buffer.get m j)

/-! ### Reset -/

/-- The reset values that R42 states. The value of VERBOSITY_INIT itself is the model's (log 3). -/
def Obligations.ResetValues : Prop :=
  State.reset.P.state = .seek1 ∧ State.reset.P.devId = 0 ∧ State.reset.P.length = 0 ∧
    State.reset.P.statusRaw = 0 ∧ State.reset.P.idx = 0 ∧ State.reset.P.sum = 0 ∧
    State.reset.P.code = .notDone ∧ State.reset.D.phase = .idle ∧
    State.reset.D.result = .ok .none .empty ∧ State.reset.D.verbosity = State.reset.params.verbosityInit ∧
    State.reset.D.txlen = 0

/-- Asserting `rst` sets the registers to their reset values whatever the block is doing, and touches neither the
parameters nor the transport (R173, R175). That rst is an event of the host's schedule and may come in any phase
is logs 4 and 18. -/
def Obligations.ResetInputResetsTheBlock : Prop :=
  ∀ (s : State) (later : List HostEvent), ResetAsserted s later →
    ∃ t, step s = .next t ∧
      t.P.state = .seek1 ∧ t.P.devId = 0 ∧ t.P.length = 0 ∧ t.P.statusRaw = 0 ∧ t.P.idx = 0 ∧ t.P.sum = 0 ∧
      t.P.code = .notDone ∧ t.D.phase = .idle ∧ t.D.result = .ok .none .empty ∧
      t.D.verbosity = s.params.verbosityInit ∧ t.D.txlen = 0 ∧
      t.params = s.params ∧ t.env = { s.env with host := later }

/-! ### Codec -/

/-- CHECKSUM gives 255 minus the sum modulo 256, and changes nothing else (R93). -/
def Obligations.ChecksumCompletes : Prop :=
  ∀ (s : State) (bytes : List Byte), s.D.phase = .idle →
    exec (.checksum bytes) s =
      .next (ended s (.ok .none (.byte (BitVec.ofNat 8 (255 - (bytes.map BitVec.toNat).sum % 256)))) [])

/-- `255 - s` is the complement of `s`, without borrow (R94). -/
def Obligations.ChecksumIsComplement : Prop :=
  (∀ s : Byte, (255 : Byte) - s = ~~~s ∧ ((255 : Byte) - s).toNat = 255 - s.toNat) ∧
    ∀ bytes : List Byte, checksumOf bytes = ~~~(sum8 bytes)

/-- The checksum byte `c` of a frame obeys R67 exactly when the bytes from `device_id` through the checksum sum to
0xFF modulo 256 (R95). -/
def Obligations.WholeFrameSum : Prop :=
  ∀ (id code c : Byte) (payload : List Byte), payload.length ≤ 253 →
    let body := frameBody id code payload
    (c.toNat = 255 - (body.map BitVec.toNat).sum % 256 ↔ sum8 ((0xFF :: 0xFF :: body ++ [c]).drop 2) = 0xFF) ∧
      (c = checksumOf body ↔ c.toNat = 255 - (body.map BitVec.toNat).sum % 256)

/-- VALIDATE gives true exactly on a well-formed frame, never an error, and changes nothing else (R96). -/
def Obligations.ValidateCompletes : Prop :=
  ∀ (s : State) (f : List Byte), s.D.phase = .idle →
    ∃ ok : Bool, exec (.validate f) s = .next (ended s (.ok .none (.bool ok)) []) ∧
      (ok = true ↔
        6 ≤ f.length ∧ f[0]? = some 0xFF ∧ f[1]? = some 0xFF ∧
          (f[3]?).map BitVec.toNat = some (f.length - 4) ∧ ((f.drop 2).map BitVec.toNat).sum % 256 = 255)

/-- ENCODE, for each selector of R85's table and the code byte of its command, writes the frame of R97 into TXBUF and
its length into `D.txlen`, gives it as the result, and changes nothing else. -/
def Obligations.EncodeCompletes : Prop :=
  ∀ (s : State) (id : Byte) (cmd : BitVec 3) (code : Byte) (payload : List Byte),
    s.D.phase = .idle → Target s id → payload.length ≤ 253 →
    (cmd, code) ∈ [((0 : BitVec 3), s.params.cmdPing), (1, s.params.cmdRead), (2, 0x03),
      (3, s.params.cmdRegWrite), (4, s.params.cmdAction), (5, s.params.cmdReset), (6, s.params.cmdSyncWrite)] →
      let f := frame id code payload
      exec (.encodeOp id cmd payload) s =
        .next (ended { s with D := { s.D with
            txbuf := Buffer.store s.D.txbuf 0 f
            txlen := BitVec.ofNat 9 (payload.length + 6) } } (.ok .none (.bytes f)) [])

/-- When several checks of ENCODE fail, the first of F_ILLEGAL_OP, V_ID, V_TOO_LONG is reported, and TXBUF and
`D.txlen` are unchanged (R97, R98). -/
def Obligations.EncodeReportsTheFirstError : Prop :=
  ∀ (s : State) (id : Byte) (cmd : BitVec 3) (payload : List Byte), s.D.phase = .idle →
    (cmd = 7 → exec (.encodeOp id cmd payload) s = .next (ended s (.error (.fault .illegalOp)) [])) ∧
    (cmd ≠ 7 → ¬ Target s id →
      exec (.encodeOp id cmd payload) s = .next (ended s (.error (.validation .id)) [])) ∧
    (cmd ≠ 7 → Target s id → 253 < payload.length →
      exec (.encodeOp id cmd payload) s = .next (ended s (.error (.validation .tooLong)) []))

/-- Every frame ENCODE produces has the shape of R99 and passes VALIDATE. -/
def Obligations.EncodedFramesAreWellShaped : Prop :=
  ∀ (p : Params) (id : Byte) (c : Cmd) (payload f : List Byte), encodeCommand p id c payload = .ok f →
    f.length = payload.length + 6 ∧ f[0]? = some 0xFF ∧ f[1]? = some 0xFF ∧
      (f[3]?).map BitVec.toNat = some (payload.length + 2) ∧ sum8 (f.drop 2) = 0xFF ∧ validFrame f = true

/-! ### Parser -/

/-- PARSER_CLEAR makes the parser fresh in every parser state and leaves PBUF as it is (R114). -/
def Obligations.ParserClearCompletes : Prop :=
  ∀ s : State, s.D.phase = .idle →
    exec .parserClear s = .next (ended
      { s with P := { s.P with
          state := .seek1, code := .notDone, devId := 0, length := 0, statusRaw := 0, idx := 0, sum := 0 } }
      (.ok .none .empty) [])

/-- The parser's next state in every state but PAYLOAD and the terminal ones, on every byte, with its outcome (R104,
R105, R106, R107, R108, R110). -/
def Obligations.ParserNextState : Prop :=
  ∀ (p : Params) (P : Parser) (b : Byte),
    (P.state = .seek1 → ∃ P', pstep p P b = .ok P' ∧ outcome P' = .notDone ∧
      P' = { P with state := if b = 0xFF then .seek2 else .seek1 }) ∧
    (P.state = .seek2 → ∃ P', pstep p P b = .ok P' ∧ outcome P' = .notDone ∧
      P' = { P with state := if b = 0xFF then .id
        else match p.seek2Mismatch with
          | .toSeek1 => .seek1
          | .staySeek2 => .seek2 }) ∧
    (P.state = .id → ∃ P', pstep p P b = .ok P' ∧ outcome P' = .notDone ∧
      P' = { P with devId := b, sum := b, state := .len }) ∧
    (P.state = .len → ∃ P', pstep p P b = .ok P' ∧
      (if 2 ≤ b.toNat ∨ p.shortLengthPolicy = .zeroPayload then
        outcome P' = .notDone ∧ P' = { P with length := b, sum := P.sum + b, idx := 0, state := .status }
      else outcome P' = .failed .malformed ∧
        P' = { P with length := b, sum := P.sum + b, idx := 0, code := .malformed, state := .failed })) ∧
    (P.state = .status → ∃ P', pstep p P b = .ok P' ∧ outcome P' = .notDone ∧
      P' = { P with
        statusRaw := b, sum := P.sum + b
        state := if P.length.toNat - 2 = 0 then .check else .payload }) ∧
    (P.state = .check → ∃ P', pstep p P b = .ok P' ∧
      (if P.sum + b = 0xFF then
        outcome P' = .complete ∧
          P' = { P with sum := 0xFF, code := resolve p P.statusRaw, state := .complete }
      else outcome P' = .failed .checksum ∧
        P' = { P with sum := P.sum + b, code := .checksum, state := .failed }))

/-- PROCESS_BYTE in SEEK1 and SEEK2: a marker advances, another byte is dropped, and in SEEK2 goes where
SEEK2_MISMATCH says; no other register changes and the outcome is NotDone (R104, R105). -/
def Obligations.PreambleSearch : Prop :=
  ∀ (s : State) (b : Byte), s.D.phase = .idle →
    (s.P.state = .seek1 →
      exec (.processByte b) s =
        .next (processed s { s.P with state := if b = 0xFF then .seek2 else .seek1 } 0)) ∧
    (s.P.state = .seek2 → b = 0xFF →
      exec (.processByte b) s = .next (processed s { s.P with state := .id } 0)) ∧
    (s.P.state = .seek2 → b ≠ 0xFF → s.params.seek2Mismatch = .toSeek1 →
      exec (.processByte b) s = .next (processed s { s.P with state := .seek1 } 0)) ∧
    (s.P.state = .seek2 → b ≠ 0xFF → s.params.seek2Mismatch = .staySeek2 →
      exec (.processByte b) s = .next (processed s { s.P with state := .seek2 } 0))

/-- PROCESS_BYTE in ID, LEN and STATUS (R106, R107, R108). -/
def Obligations.HeaderBytes : Prop :=
  ∀ (s : State) (b : Byte), s.D.phase = .idle →
    (s.P.state = .id →
      exec (.processByte b) s = .next (processed s { s.P with devId := b, sum := b, state := .len } 0)) ∧
    (s.P.state = .len → (2 ≤ b.toNat ∨ s.params.shortLengthPolicy = .zeroPayload) →
      exec (.processByte b) s =
        .next (processed s { s.P with length := b, sum := s.P.sum + b, idx := 0, state := .status } 0)) ∧
    (s.P.state = .len → b.toNat < 2 → s.params.shortLengthPolicy = .failMalformed →
      exec (.processByte b) s = .next (processed s
        { s.P with length := b, sum := s.P.sum + b, idx := 0, code := .malformed, state := .failed } 2)) ∧
    (s.P.state = .status →
      exec (.processByte b) s = .next (processed s
        { s.P with
          statusRaw := b, sum := s.P.sum + b
          state := if s.P.length.toNat - 2 = 0 then .check else .payload } 0))

/-- PROCESS_BYTE in PAYLOAD stores the byte at `P.idx` and counts it, and goes to CHECK after the last declared
byte (R109). -/
def Obligations.PayloadByte : Prop :=
  ∀ (s : State) (b : Byte), s.D.phase = .idle → s.P.state = .payload →
    s.P.idx.toNat < s.P.length.toNat - 2 →
      exec (.processByte b) s = .next (processed s
        { s.P with
          pbuf := Buffer.set s.P.pbuf s.P.idx.toNat b
          idx := s.P.idx + 1
          sum := s.P.sum + b
          state := if s.P.idx.toNat + 1 = s.P.length.toNat - 2 then .check else .payload } 0)

/-- PROCESS_BYTE in CHECK: COMPLETE with the resolved status when the sum is 0xFF, a device fault too; else FAILED
with CHECKSUM (R110). -/
def Obligations.CheckByte : Prop :=
  ∀ (s : State) (b : Byte), s.D.phase = .idle → s.P.state = .check →
    (s.P.sum + b = 0xFF →
      exec (.processByte b) s = .next (processed s
        { s.P with sum := 0xFF, code := resolve s.params s.P.statusRaw, state := .complete } 1)) ∧
    (s.P.sum + b ≠ 0xFF →
      exec (.processByte b) s = .next (processed s
        { s.P with sum := s.P.sum + b, code := .checksum, state := .failed } 2))

/-- PROCESS_BYTE on a terminal parser is refused with F_PARSER_DONE, and no parser register changes (R103). That a
FAULT result is a next state is log 14. -/
def Obligations.TerminalParserTakesNoByte : Prop :=
  ∀ (s : State) (b : Byte), s.D.phase = .idle → (s.P.state = .complete ∨ s.P.state = .failed) →
    exec (.processByte b) s = .next (ended s (.error (.fault .parserDone)) [])

/-- In COMPLETE the accessors give the device id, the resolved code, the payload and the raw status byte, and
change nothing; the payload is the `P.idx` bytes of PBUF from index 0 on (R119 to R122). -/
def Obligations.AccessorsInComplete : Prop :=
  ∀ (s : State) (bs : List Byte), s.D.phase = .idle → s.P.state = .complete →
    exec .getDeviceId s = .next (ended s (.ok .none (.byte s.P.devId)) []) ∧
    exec .getErrorCode s = .next (ended s (.ok s.P.code .empty) []) ∧
    exec .getStatusRaw s = .next (ended s (.ok .none (.byte s.P.statusRaw)) []) ∧
    (s.P.idx.toNat ≤ 253 → bs.length = s.P.idx.toNat →
      (∀ n (h : n < bs.length), bs[n] = Buffer.get s.P.pbuf n) →
      exec .getPayload s = .next (ended s (.ok .none (.bytes bs)) []))

/-- Outside COMPLETE, FAILED included, every accessor is refused with F_NOT_COMPLETE and nothing else changes (R119 to
R122). That a FAULT result is a next state is log 14. -/
def Obligations.AccessorsOutsideComplete : Prop :=
  ∀ (s : State) (i : Instr), s.D.phase = .idle → s.P.state ≠ .complete →
    i ∈ [Instr.getDeviceId, Instr.getErrorCode, Instr.getPayload, Instr.getStatusRaw] →
      exec i s = .next (ended s (.error (.fault .notComplete)) [])

/-- A nonzero status byte resolves to the fault of the first set bit in priority order, so to exactly one device
fault; zero resolves to NONE. The default order is 2, 5, 3, 6, 0, 4, 1, 7, OVERHEATING first (R80, R118). -/
def Obligations.ResolvePicksTheFirstSetBit : Prop :=
  ∀ (p : Params) (s : Byte), p.Valid →
    (s = 0 → resolve p s = .none) ∧
    (s ≠ 0 → ∃ (before after : List (Fin 8)) (i : Fin 8),
      p.statusPriority = before ++ i :: after ∧ s.getLsbD i.val = true ∧
        (∀ j ∈ before, s.getLsbD j.val = false) ∧ resolve p s = faultCode (p.statusBitMap[i.val])) ∧
    Params.default.statusPriority = [2, 5, 3, 6, 0, 4, 1, 7] ∧
    Params.default.statusPriority.map (fun i => faultCode (Params.default.statusBitMap[i.val])) =
      [.overheating, .overload, .range, .instruction, .inputVoltage, .checksum, .angleLimit, .reserved]

/-- `P.sum` is the sum modulo 256 of the bytes consumed since the parser was in ID (R113). -/
def Obligations.RunningSum : Prop :=
  ∀ (p : Params) (P P' : Parser) (bs : List Byte), P.state = .id → bs ≠ [] → feed p P bs = .ok P' →
    P'.sum = BitVec.ofNat 8 ((bs.map BitVec.toNat).sum)

/-- Inside a frame no byte completes the frame, restarts the preamble search or is refused before CHECK; only a short
length under FAIL_MALFORMED ends it (R116). R116 also names PARSER_CLEAR, which is ParserClearCompletes. -/
def Obligations.NoAbortInsideAFrame : Prop :=
  ∀ (p : Params) (P : Parser) (b : Byte),
    P.state ∈ [ParserState.id, .len, .status, .payload] → (P.state = .payload → P.idx.toNat < npay P) →
      ∃ P', pstep p P b = .ok P' ∧ P'.state ≠ .seek1 ∧ P'.state ≠ .seek2 ∧ P'.state ≠ .complete ∧
        (P'.state = .failed →
          P.state = .len ∧ b.toNat < 2 ∧ p.shortLengthPolicy = .failMalformed ∧ P'.code = .malformed)

/-- Once in ID the parser is terminal after exactly 2 bytes (short length under FAIL_MALFORMED), 4 bytes (short length
under ZERO_PAYLOAD) or `length + 2` bytes, counting the id byte, and not before. While it seeks there is no bound:
bytes without two adjacent markers keep it seeking, and under STAY_SEEK2 bytes with one marker at most (R112). The
unbounded streams are those R104 and R105 give: without two adjacent markers under TO_SEEK1, with one marker at
most under STAY_SEEK2. -/
def Obligations.FrameLengthIsBounded : Prop :=
  (∀ (p : Params) (P : Parser) (id len : Byte) (rest : List Byte), P.state = .id →
    rest.length + 2 = (if 2 ≤ len.toNat then len.toNat + 2
      else match p.shortLengthPolicy with
        | .failMalformed => 2
        | .zeroPayload => 4) →
      rest.length + 2 ≤ 257 ∧
      (∃ P', feed p P (id :: len :: rest) = .ok P' ∧ P'.done = true) ∧
      ∀ n < rest.length + 2, ∃ P', feed p P ((id :: len :: rest).take n) = .ok P' ∧ P'.done = false) ∧
  (∀ (p : Params) (P : Parser) (bs : List Byte), P.state = .seek1 →
    (¬ [0xFF, 0xFF] <:+: bs ∧ p.seek2Mismatch = .toSeek1) ∨
        (bs.count 0xFF ≤ 1 ∧ p.seek2Mismatch = .staySeek2) →
      ∃ P', feed p P bs = .ok P' ∧ (P'.state = .seek1 ∨ P'.state = .seek2))

/-- A frame ENCODE produces, fed to a parser in SEEK1, completes on its last byte and not before, with the id, the
command code as status and the resolved code; GET_PAYLOAD then gives the payload, its operation ending as every
operation does (R101). Under every value of the parameters. What the host is given and the operation in progress
are the model's own fields (logs 4 and 8). -/
def Obligations.EncodeParseRoundTrip : Prop :=
  ∀ (p : Params) (P : Parser) (id : Byte) (c : Cmd) (payload f : List Byte),
    encodeCommand p id c payload = .ok f → P.state = .seek1 →
      (∃ P', feed p P f = .ok P' ∧ P'.state = .complete ∧ P'.devId = id ∧ P'.statusRaw = p.code c ∧
        P'.code = resolve p (p.code c) ∧
        ∀ s : State, s.D.phase = .idle → s.P = P' →
          exec .getPayload s = .next (ended s (.ok .none (.bytes payload)) [])) ∧
      ∀ n < f.length, ∃ P', feed p P (f.take n) = .ok P' ∧ P'.done = false

/-! ### Dispatcher: acceptance and operands -/

/-- An operation issued while the block is not IDLE, a reserved one too, is answered F_BUSY to its issuer and writes
no register (R123, R156). The issuer's answer stands in `replies` (logs 4 and 15). -/
def Obligations.BusyBlockWritesNoRegister : Prop :=
  ∀ (s : State) (i : Instr), i.isFrame = false → s.D.phase ≠ .idle →
    exec i s = .next { s with env := { s.env with
      replies := s.env.replies ++ [⟨.error (.fault .busy), []⟩] } }

/-- A reserved selector raises F_ILLEGAL_OP and changes no other state (R89). -/
def Obligations.ReservedSelectorsRaiseIllegalOp : Prop :=
  ∀ (s : State) (i : Instr), s.D.phase = .idle → i ∈ reservedInstrs →
    exec i s = .next (ended s (.error (.fault .illegalOp)) [])

/-- PING, READ, WRITE, REG_WRITE and RESET put their frame into TXBUF and go to phase TX, with nothing sent yet; the
id may be BROADCAST_ID (R124, R129 to R137, R72 to R77). How a step is cut is log 7. -/
def Obligations.TargetedOperationsStart : Prop :=
  ∀ (s : State) (id offset count : Byte) (data : List Byte), s.D.phase = .idle → Target s id →
    exec (.ping id) s = .next (started s .ping (frame id s.params.cmdPing [])) ∧
    exec (.read id offset count) s = .next (started s .read (frame id s.params.cmdRead [offset, count])) ∧
    exec (.resetDevice id) s = .next (started s .reset (frame id s.params.cmdReset [])) ∧
    (data.length ≤ 252 →
      exec (.write id offset data) s = .next (started s .write (frame id 0x03 (offset :: data))) ∧
      exec (.regWrite id offset data) s =
        .next (started s .regWrite (frame id s.params.cmdRegWrite (offset :: data))))

/-- A target outside the id domain gives V_ID, data above 252 bytes V_TOO_LONG, before any byte is sent and with
nothing else changed (R97, R133, R157). -/
def Obligations.TargetedOperationsValidate : Prop :=
  ∀ (s : State) (id offset count : Byte) (data : List Byte), s.D.phase = .idle →
    (¬ Target s id →
      ∀ i ∈ [Instr.ping id, .read id offset count, .write id offset data, .regWrite id offset data,
        .resetDevice id], exec i s = .next (ended s (.error (.validation .id)) [])) ∧
    (Target s id → 252 < data.length →
      ∀ i ∈ [Instr.write id offset data, .regWrite id offset data],
        exec i s = .next (ended s (.error (.validation .tooLong)) []))

/-- ACTION puts its frame to BROADCAST_ID into TXBUF (R76, R139). How a step is cut is log 7. -/
def Obligations.ActionStarts : Prop :=
  ∀ s : State, s.D.phase = .idle →
    exec .action s = .next (started s .action (frame s.params.broadcastId s.params.cmdAction []))

/-- SYNC_WRITE with matching arguments of one width `k` puts the frame of R78 to BROADCAST_ID into TXBUF (R141). How a
step is cut is log 7. -/
def Obligations.SyncWriteStarts : Prop :=
  ∀ (s : State) (ids : List Byte) (offset : Byte) (values : List (List Byte)) (k : Nat),
    s.D.phase = .idle → ids.length = values.length → ids ≠ [] → (∀ v ∈ values, v.length = k) →
      2 + ids.length * (1 + k) ≤ 253 →
      exec (.syncWrite ids offset values) s = .next (started s .syncWrite
        (frame s.params.broadcastId s.params.cmdSyncWrite
          (offset :: BitVec.ofNat 8 k :: (ids.zip values).flatMap fun e => e.1 :: e.2)))

/-- SYNC_WRITE's checks in their order, V_DIM, V_EMPTY, V_WIDTH and then the size: the first that fails is raised
and nothing is sent (R143, R144, R145). -/
def Obligations.SyncWriteChecksInOrder : Prop :=
  ∀ (s : State) (ids : List Byte) (offset : Byte) (values : List (List Byte)), s.D.phase = .idle →
    (ids.length ≠ values.length →
      exec (.syncWrite ids offset values) s = .next (ended s (.error (.validation .dim)) [])) ∧
    (ids.length = values.length → ids = [] →
      exec (.syncWrite ids offset values) s = .next (ended s (.error (.validation .empty)) [])) ∧
    (ids.length = values.length → ids ≠ [] → (∃ v ∈ values, ∃ w ∈ values, v.length ≠ w.length) →
      exec (.syncWrite ids offset values) s = .next (ended s (.error (.validation .width)) [])) ∧
    (∀ k : Nat, ids.length = values.length → ids ≠ [] → (∀ v ∈ values, v.length = k) →
      253 < 2 + ids.length * (1 + k) →
      exec (.syncWrite ids offset values) s = .next (ended s (.error (.validation .tooLong)) []))

/-- SCAN writes its four registers and begins its loop: with an id in the range it stands before its first PING in
phase SCAN; with none it ends with `false` and an empty log. The range is cut below BROADCAST_ID and 254, without
wrap (R146, R147). How a step is cut is log 7. -/
def Obligations.ScanStarts : Prop :=
  ∀ (s : State) (startId : Byte) (count : Nat), s.D.phase = .idle →
    let last := min (startId.toNat + count) (min s.params.broadcastId.toNat 254)
    let s1 : State := { s with D := { s.D with
      activity := .scan, scanId := startId, scanEnd := BitVec.ofNat 9 last, scanFound := false, scanLog := [] } }
    s1.D.scanEnd.toNat = last ∧
    (startId.toNat < last →
      exec (.scan startId count) s = .next { s1 with D := { s1.D with phase := .scan } }) ∧
    (last ≤ startId.toNat →
      exec (.scan startId count) s = .next (ended s1 (.ok .none (.bool false)) []))

/-! ### Dispatcher: transmission -/

/-- PING and READ frames, and WRITE, REG_WRITE and RESET frames not to BROADCAST_ID, are handed over whole; the
parser is cleared and the phase is RX (R124, R130). -/
def Obligations.AddressedFramesAwaitAReply : Prop :=
  ∀ (s : State) (id offset count : Byte) (data : List Byte), s.D.phase = .tx →
    exec (.cmdPing id) s = .next (awaiting s (frame id s.params.cmdPing [])) ∧
    exec (.cmdRead id offset count) s = .next (awaiting s (frame id s.params.cmdRead [offset, count])) ∧
    (id ≠ s.params.broadcastId →
      exec (.cmdWrite id offset data) s = .next (awaiting s (frame id 0x03 (offset :: data))) ∧
      exec (.cmdRegWrite id offset data) s =
        .next (awaiting s (frame id s.params.cmdRegWrite (offset :: data))) ∧
      exec (.cmdReset id) s = .next (awaiting s (frame id s.params.cmdReset [])))

/-- ACTION and SYNC_WRITE frames, and WRITE, REG_WRITE and RESET frames to BROADCAST_ID, are handed over whole and
end the operation with NONE; the parser is not touched (R125, R134). -/
def Obligations.BroadcastFramesEndTheOperation : Prop :=
  ∀ (s : State) (offset : Byte) (data ids : List Byte) (values : List (List Byte)), s.D.phase = .tx →
    let B := s.params.broadcastId
    let sending (f : List Byte) : State := { s with env := { s.env with sent := s.env.sent ++ [f] } }
    let done (f : List Byte) : StepOutcome := .next (ended (sending f) (.ok .none .empty) [])
    exec .cmdAction s = done (frame B s.params.cmdAction []) ∧
    exec (.cmdSyncWrite offset ids values) s = done (frame B s.params.cmdSyncWrite
      (offset :: BitVec.ofNat 8 (values.headD []).length :: (ids.zip values).flatMap fun e => e.1 :: e.2)) ∧
    exec (.cmdWrite B offset data) s = done (frame B 0x03 (offset :: data)) ∧
    exec (.cmdRegWrite B offset data) s = done (frame B s.params.cmdRegWrite (offset :: data)) ∧
    exec (.cmdReset B) s = done (frame B s.params.cmdReset [])

/-- A command frame met outside phase TX is refused: the model's choice (log 9), since the block never holds one
there. No rule of the spec says so: log 9. -/
def Obligations.FramesOutsideTxAreRefused : Prop :=
  ∀ (s : State) (i : Instr), i.isFrame = true → s.D.phase ≠ .tx → exec i s = .refused .frameOutsideTx

/-- A step that changes the list of transmitted frames starts in phase TX, or in phase SCAN with its PING, and adds to
the list exactly the bytes `0 .. D.txlen - 1` of TXBUF; in phase TX it does not write TXBUF (R48, R185). `sent` is the
model's own field (log 4). -/
def Obligations.OnlyTxTransmitsAndTransmitsTxbuf : Prop :=
  ∀ s t : State, step s = .next t →
    t.env.sent = s.env.sent ∨
      ((s.D.phase = .tx ∧ t.D.txbuf = s.D.txbuf ∧ t.D.txlen = s.D.txlen ∨ s.D.phase = .scan) ∧
        ∃ f, Buffer.load Config.txCapacity t.D.txbuf t.D.txlen.toNat = .ok f ∧ t.env.sent = s.env.sent ++ [f])

/-- No step outside phase RX takes an answer from the transport. `rx` and `rxTail` are the model's own fields (log 5). -/
def Obligations.OnlyRxReads : Prop :=
  ∀ s t : State, step s = .next t → s.D.phase ≠ .rx → t.env.rx = s.env.rx ∧ t.env.rxTail = s.env.rxTail

/-! ### Dispatcher: the receive loop -/

/-- NONE before the reply is complete: PING gives false, a SCAN logs the id as missing and goes on or ends, and every
other operation ends with TIMEOUT (R126, R129, R146, R153). -/
def Obligations.SilenceInTheReceiveLoop : Prop :=
  ∀ (s : State) (rest : List (Option Byte)),
    s.D.phase = .rx → NothingDue s.env.host → s.env.rx = none :: rest →
    let s1 : State := { s with env := { s.env with rx := rest } }
    (s.D.activity = .ping → step s = .next (ended s1 (.ok .none (.bool false)) [])) ∧
    (s.D.activity = .scan → step s = .next (scanPinged s1 false)) ∧
    (s.D.activity ∈ [Activity.read, .write, .regWrite, .reset] →
      step s = .next (ended s1 (.error (.bus .timeout)) []))

/-- A byte that leaves the parser short of a terminal state: the loop goes on, with only the parser and the
transport changed (R124). -/
def Obligations.ReceiveLoopGoesOn : Prop :=
  ∀ (s : State) (b : Byte) (rest : List (Option Byte)) (P' : Parser),
    s.D.phase = .rx → NothingDue s.env.host → s.env.rx = some b :: rest → pstep s.params s.P b = .ok P' →
      P'.done = false → step s = .next { s with P := P', env := { s.env with rx := rest } }

/-- A byte that fails the frame ends the operation with the parser's code, and one that completes it with a
nonzero code ends it with that fault; the parser keeps its registers, and a SCAN returns the log it has (R124,
R126, R148). -/
def Obligations.FailedExchangeRaisesItsCode : Prop :=
  ∀ (s : State) (b : Byte) (rest : List (Option Byte)) (P' : Parser),
    s.D.phase = .rx → NothingDue s.env.host → s.env.rx = some b :: rest → pstep s.params s.P b = .ok P' →
      (P'.state = .failed ∨ (P'.state = .complete ∧ P'.code ≠ .none)) →
      step s = .next (ended { s with P := P', env := { s.env with rx := rest } } (.error (.bus P'.code))
        (if s.D.activity = .scan then s.D.scanLog else []))

/-- A byte that completes a reply with status NONE: PING gives true, READ the payload, the writes and RESET an empty
result, and a SCAN logs the id as found and goes on or ends (R124, R129, R131, R133, R146). -/
def Obligations.CompletedExchangeEnds : Prop :=
  ∀ (s : State) (b : Byte) (rest : List (Option Byte)) (P' : Parser) (bs : List Byte),
    s.D.phase = .rx → NothingDue s.env.host → s.env.rx = some b :: rest → pstep s.params s.P b = .ok P' →
      P'.state = .complete → P'.code = .none →
      let s1 : State := { s with P := P', env := { s.env with rx := rest } }
      (s.D.activity = .ping → step s = .next (ended s1 (.ok .none (.bool true)) [])) ∧
      (s.D.activity = .read → Buffer.load 253 P'.pbuf P'.idx.toNat = .ok bs →
        step s = .next (ended s1 (.ok .none (.bytes bs)) [])) ∧
      (s.D.activity ∈ [Activity.write, .regWrite, .reset] →
        step s = .next (ended s1 (.ok .none .empty) [])) ∧
      (s.D.activity = .scan → step s = .next (scanPinged s1 true))

/-- The next PING of a SCAN: its frame stands in TXBUF and has been handed over, the parser is cleared and the reply is
awaited, in one step. An id that ENCODE refuses, which the range of R147 excludes, would end the scan with its error
and its log (R124, R146, R148). How a step is cut is log 7. -/
def Obligations.ScanLoopTurns : Prop :=
  ∀ s : State, s.D.phase = .scan → NothingDue s.env.host →
    let f := frame s.D.scanId s.params.cmdPing []
    (Target s s.D.scanId → step s = .next (awaiting (started s .scan f) f)) ∧
    (¬ Target s s.D.scanId → step s = .next (ended s (.error (.validation .id)) s.D.scanLog))

/-! ### Whole operations -/

/-- A broadcast operation, from acceptance to its end: one frame is sent, no answer is read, the parser is not
touched, the result is NONE, and the host's later acts stand as they were (R125, R150). Two steps by log 7. -/
def Obligations.BroadcastOperationsNeverRead : Prop :=
  ∀ (s : State) (i : Instr) (f : List Byte) (later : List HostEvent),
    s.params.Valid → s.D.phase = .idle → Issues s i later → Broadcast s.params i f →
      ∃ t, run 2 s = .next t ∧ t.D.phase = .idle ∧ t.D.result = .ok .none .empty ∧
        t.env.sent = s.env.sent ++ [f] ∧ t.env.rx = s.env.rx ∧ t.env.rxTail = s.env.rxTail ∧ t.P = s.P ∧
        t.env.host = later ∧ t.env.replies = s.env.replies ++ [⟨.ok .none .empty, []⟩]

/-- An addressed operation whose reply is cut off by NONE at any byte, the first included, having sent one frame: PING
gives false, every other operation TIMEOUT (R126, R184). The number of steps is log 7's. -/
def Obligations.AddressedOperationsTimeOut : Prop :=
  ∀ (s : State) (id : Byte) (i : Instr) (f noise : List Byte) (rest : List (Option Byte)) (P' : Parser)
      (later : List HostEvent),
    s.params.Valid → s.D.phase = .idle → Target s id → Issues s i later → Addressed s.params id i f →
    feed s.params s.P.cleared noise = .ok P' → P'.done = false →
    s.env.rx = noise.map some ++ none :: rest →
      ∃ t, run (noise.length + 3) s = .next t ∧ t.D.phase = .idle ∧ t.D.result = timeoutResult i ∧
        t.env.sent = s.env.sent ++ [f] ∧ t.env.rx = rest ∧ t.P = P' ∧ t.env.host = later ∧
        t.env.replies = s.env.replies ++ [⟨timeoutResult i, []⟩]

/-- An addressed operation answered by a status frame, whatever id the frame carries: status 0 gives the operation's
success, READ the frame's payload; another status its resolved fault, the parser keeping the status byte. One
frame is sent and the transport's later bytes stay unread (R124, R128, R152, R180). The number of steps is log
7's. -/
def Obligations.AddressedOperationsTakeTheReply : Prop :=
  ∀ (s : State) (id dev status : Byte) (i : Instr) (f payload : List Byte) (rest : List (Option Byte))
      (later : List HostEvent),
    s.params.Valid → s.D.phase = .idle → Target s id → Issues s i later → Addressed s.params id i f →
    payload.length ≤ 253 → s.env.rx = (frame dev status payload).map some ++ rest →
      let r : Result := if status = 0 then replyResult payload i else .error (.bus (resolve s.params status))
      ∃ t, run (payload.length + 8) s = .next t ∧ t.D.phase = .idle ∧ t.D.result = r ∧
        t.env.sent = s.env.sent ++ [f] ∧ t.env.rx = rest ∧ t.P.state = .complete ∧ t.P.devId = dev ∧
        t.P.statusRaw = status ∧ Buffer.load 253 t.P.pbuf t.P.idx.toNat = .ok payload ∧ t.env.host = later ∧
        t.env.replies = s.env.replies ++ [⟨r, []⟩]

/-- A SCAN whose every PING is answered by a clean status frame, from any device, or by silence: one PING per id of the
range, cut below BROADCAST_ID and 254, in ascending order; a log of one event per id; the flag whether any answered.
A frame is sent only when every earlier PING has been resolved: its event is in the log and its answer has been taken
from the transport, the later ones untouched (R146, R147, R149). -/
def Obligations.ScanPingsInOrder : Prop :=
  ∀ (s : State) (startId : Byte) (count : Nat) (answers : List ScanAnswer) (rest : List (Option Byte))
      (later : List HostEvent),
    s.params.Valid → s.D.phase = .idle → Issues s (.scan startId count) later →
    answers.length = min (startId.toNat + count) (min s.params.broadcastId.toNat 254) - startId.toNat →
    (∀ a ∈ answers, ∀ reply ∈ a, reply.2.length ≤ 253) → s.env.rx = scanAnswers answers ++ rest →
      let events := scanEvents startId.toNat answers
      let result : Result := .ok .none (.bool (answers.any Option.isSome))
      ∃ n t, run n s = .next t ∧ t.D.phase = .idle ∧ t.D.result = result ∧ t.D.scanLog = events ∧
        t.env.sent = s.env.sent ++ scanPings s.params events ∧ t.env.rx = rest ∧ t.env.host = later ∧
        t.env.replies = s.env.replies ++ [⟨result, events⟩] ∧
        ∀ m < n, ∃ u v, run m s = .next u ∧ step u = .next v ∧
          (v.env.sent ≠ u.env.sent → ∃ k < answers.length,
            u.D.scanLog = events.take k ∧ u.env.rx = scanAnswers (answers.drop k) ++ rest ∧
            u.env.sent = s.env.sent ++ scanPings s.params (events.take k) ∧
            v.env.sent = s.env.sent ++ scanPings s.params (events.take (k + 1)))

/-- An exchange fed bytes none of which is a marker, for ever, never ends: after any number of steps the phase is
still RX, the parser still seeks, and no result has been given (R183). `rxTail` is the model's own field (log 5). -/
def Obligations.NoiseKeepsTheExchangeOpen : Prop :=
  ∀ (s : State) (n : Nat) (pattern : List (Option Byte)),
    s.D.phase = .rx → s.P.state = .seek1 → NothingDue s.env.host →
    (∀ a ∈ s.env.rx, ∃ b, a = some b ∧ b ≠ 0xFF) →
    s.env.rxTail = .repeating pattern → pattern ≠ [] → (∀ a ∈ pattern, ∃ b, a = some b ∧ b ≠ 0xFF) →
      ∃ t, run n s = .next t ∧ t.D = s.D ∧ t.P = s.P ∧ t.env.replies = s.env.replies

/-! ### Whole-machine rules -/

/-- A host operation that ends at once with a fault or a validation error changes nothing but the result register
and the host's replies (R145, R156). -/
def Obligations.RejectedOperationsChangeOnlyTheResult : Prop :=
  ∀ (s t : State) (i : Instr) (e : OpError), i.isFrame = false → s.D.phase = .idle → exec i s = .next t →
    t.D.phase = .idle → t.D.result = .error e → t = ended s (.error e) []

/-- No operation writes the parameters or the verbosity register, neither its instructions nor the steps of an exchange
or a SCAN without an instruction: every step keeps the parameters, and every step keeps the verbosity but one that
asserts `rst`, which gives it VERBOSITY_INIT (R33, R38, R173). The parameters as a field of State are log 1, `rst` in
the host's schedule logs 4 and 18. -/
def Obligations.NoOperationWritesParametersOrVerbosity : Prop :=
  (∀ (s t : State) (i : Instr), exec i s = .next t → t.params = s.params ∧ t.D.verbosity = s.D.verbosity) ∧
  ∀ s t : State, step s = .next t →
    t.params = s.params ∧
    ((∀ later, ¬ ResetAsserted s later) → t.D.verbosity = s.D.verbosity) ∧
    (∀ later, ResetAsserted s later → t.D.verbosity = s.params.verbosityInit)

/-- The codec's operations touch neither the parser nor the transport (R100). -/
def Obligations.CodecIsPure : Prop :=
  ∀ (s t : State) (i : Instr), (∃ bytes, i = .checksum bytes ∨ i = .validate bytes) ∨
      (∃ id cmd payload, i = .encodeOp id cmd payload) → exec i s = .next t →
    t.P = s.P ∧ t.env.sent = s.env.sent ∧ t.env.rx = s.env.rx ∧ t.env.rxTail = s.env.rxTail ∧
      t.env.host = s.env.host ∧
      ((∃ bytes, i = .checksum bytes ∨ i = .validate bytes) →
        t.D.txbuf = s.D.txbuf ∧ t.D.txlen = s.D.txlen)

/-- Every step keeps the invariant. The invariant is Sys2Proof.Machine.Inv; its clause on `activity` is the model's
(log 8). -/
def Obligations.StepKeepsTheInvariant : Prop :=
  ∀ s t : State, Inv s → step s = .next t → Inv t

/-- The reset state meets the invariant. -/
def Obligations.ResetMeetsTheInvariant : Prop :=
  Inv State.reset

/-- From a state that meets the invariant a step always answers a next state: the model's own faults and refusals
cannot arise. The faults and refusals it rules out are the model's (logs 9 and 12). -/
def Obligations.InvariantStatesAlwaysStep : Prop :=
  ∀ s : State, Inv s → ∃ t, step s = .next t
end

