-- ==== Sys2Proof/Laws/Buffer.lean ====
section
/-! SUPPORT. What a buffer's operations do: reading after writing, the canonical form, slices. -/

namespace Sys2Proof.Machine

/-! ### One byte -/

theorem Buffer.get_insert (m : Buffer) (i j : Nat) (b : Byte) :
    Buffer.get (Buffer.insert m i b) j = if j = i then b else Buffer.get m j := by
  induction m with
  | nil => simp [Buffer.insert, Buffer.get]
  | cons x m ih =>
    obtain ⟨k, c⟩ := x
    simp only [Buffer.insert]
    split
    · simp [Buffer.get]
    · split
      · subst_vars; simp only [Buffer.get]; split <;> simp_all
      · simp only [Buffer.get, ih]; split_ifs <;> simp_all

theorem Buffer.get_filter (m : Buffer) (i j : Nat) :
    Buffer.get (m.filter fun x => x.1 ≠ i) j = if j = i then Buffer.unwritten else Buffer.get m j := by
  induction m with
  | nil => simp [Buffer.get]
  | cons x m ih =>
    obtain ⟨k, c⟩ := x
    by_cases hk : k = i
    · simp only [List.filter_cons, hk, ne_eq, not_true_eq_false, decide_false, Bool.false_eq_true, if_false,
        Buffer.get] at ih ⊢
      rw [ih]; split_ifs <;> rfl
    · simp only [List.filter_cons, hk, ne_eq, not_false_eq_true, decide_true, if_true, Buffer.get] at ih ⊢
      rw [ih]; split_ifs <;> simp_all

/-- A byte written is read back, and every other byte reads as before. -/
theorem Buffer.get_set (m : Buffer) (i j : Nat) (b : Byte) :
    Buffer.get (Buffer.set m i b) j = if j = i then b else Buffer.get m j := by
  unfold Buffer.set
  split
  · subst_vars; exact Buffer.get_filter m i j
  · exact Buffer.get_insert m i j b

theorem Buffer.get_set_same (m : Buffer) (i : Nat) (b : Byte) : Buffer.get (Buffer.set m i b) i = b := by
  simp [Buffer.get_set]

theorem Buffer.get_set_other (m : Buffer) {i j : Nat} (b : Byte) (h : j ≠ i) :
    Buffer.get (Buffer.set m i b) j = Buffer.get m j := by
  simp [Buffer.get_set, h]

/-- A cell of the buffer after an insertion is the one inserted or a cell from before. -/
theorem Buffer.mem_insert {m : Buffer} {i : Nat} {b : Byte} {x : Host.Cell} (h : x ∈ Buffer.insert m i b) :
    x = (i, b) ∨ x ∈ m := by
  induction m with
  | nil => simpa [Buffer.insert] using h
  | cons y m ih =>
    obtain ⟨k, c⟩ := y
    simp only [Buffer.insert] at h
    split at h
    · simpa using h
    · split at h
      · rcases List.mem_cons.mp h with rfl | h
        · exact .inl rfl
        · exact .inr (List.mem_cons_of_mem _ h)
      · rcases List.mem_cons.mp h with rfl | h
        · exact .inr (List.mem_cons_self ..)
        · exact (ih h).imp_right (List.mem_cons_of_mem _)

theorem Buffer.insert_pairwise {m : Buffer} (i : Nat) (b : Byte) (hp : m.Pairwise fun x y => x.1 < y.1) :
    (Buffer.insert m i b).Pairwise fun x y => x.1 < y.1 := by
  induction m with
  | nil => simp [Buffer.insert]
  | cons y m ih =>
    obtain ⟨k, c⟩ := y
    rw [List.pairwise_cons] at hp
    simp only [Buffer.insert]
    split
    · rename_i hk
      refine List.pairwise_cons.mpr ⟨fun z hz => ?_, List.pairwise_cons.mpr hp⟩
      rcases List.mem_cons.mp hz with rfl | hz
      · exact hk
      · exact lt_trans hk (hp.1 z hz)
    · split
      · subst_vars; exact List.pairwise_cons.mpr hp
      · rename_i h1 h2
        refine List.pairwise_cons.mpr ⟨fun z hz => ?_, ih hp.2⟩
        rcases Buffer.mem_insert hz with rfl | hz
        · show k < i; omega
        · exact hp.1 z hz

/-- A write inside the buffer keeps the canonical form. -/
theorem Buffer.set_wf {capacity : Nat} {m : Buffer} {i : Nat} (b : Byte) (h : Buffer.Wf capacity m)
    (hi : i < capacity) : Buffer.Wf capacity (Buffer.set m i b) := by
  unfold Buffer.set
  split
  · exact ⟨h.1.filter _, fun x hx => h.2 x (List.mem_of_mem_filter hx)⟩
  · rename_i hb
    refine ⟨Buffer.insert_pairwise i b h.1, fun x hx => ?_⟩
    rcases Buffer.mem_insert hx with rfl | hx
    · exact ⟨hi, hb⟩
    · exact h.2 x hx

/-! ### Runs of bytes -/

/-- Storing inside a buffer keeps its canonical form. -/
theorem Buffer.store_wf {capacity : Nat} {bs : List Byte} : ∀ {m : Buffer} {i : Nat},
    Buffer.Wf capacity m → i + bs.length ≤ capacity → Buffer.Wf capacity (Buffer.store m i bs) := by
  induction bs with
  | nil => intro m i h _; exact h
  | cons b bs ih =>
    intro m i h hi
    simp only [List.length_cons] at hi
    exact ih (Buffer.set_wf b h (by omega)) (by omega)

/-- Storing below an index leaves the bytes from it on alone, and storing above it the bytes below. -/
theorem Buffer.get_store_outside {bs : List Byte} : ∀ {m : Buffer} {i j : Nat},
    (j < i ∨ i + bs.length ≤ j) → Buffer.get (Buffer.store m i bs) j = Buffer.get m j := by
  induction bs with
  | nil => intro m i j _; rfl
  | cons b bs ih =>
    intro m i j h
    simp only [List.length_cons] at h
    rw [Buffer.store, ih (by omega), Buffer.get_set_other _ _ (by omega)]

/-- A slice reads only the bytes of its range. -/
theorem Buffer.slice_congr {n : Nat} : ∀ {m m' : Buffer} {i : Nat},
    (∀ j, i ≤ j → j < i + n → Buffer.get m j = Buffer.get m' j) → Buffer.slice m i n = Buffer.slice m' i n := by
  induction n with
  | zero => intros; rfl
  | succ n ih =>
    intro m m' i h
    simp only [Buffer.slice]
    rw [h i le_rfl (by omega), ih fun j hj hj' => h j (by omega) (by omega)]

/-- A slice of bytes just stored is those bytes. -/
theorem Buffer.slice_store {bs : List Byte} : ∀ (m : Buffer) (i : Nat),
    Buffer.slice (Buffer.store m i bs) i bs.length = bs := by
  induction bs with
  | nil => intros; rfl
  | cons b bs ih =>
    intro m i
    simp only [List.length_cons, Buffer.slice, Buffer.store]
    rw [Buffer.get_store_outside (.inl (by omega)), Buffer.get_set_same, ih]

/-- A slice has the length asked for. -/
@[simp] theorem Buffer.slice_length (m : Buffer) (i n : Nat) : (Buffer.slice m i n).length = n := by
  induction n generalizing i with
  | zero => rfl
  | succ n ih => simp [Buffer.slice, ih]

/-- The bytes of a slice are the bytes of the buffer. -/
theorem Buffer.slice_getElem? {m : Buffer} {n : Nat} : ∀ {i j : Nat}, j < n →
    (Buffer.slice m i n)[j]? = some (Buffer.get m (i + j)) := by
  induction n with
  | zero => intro i j h; omega
  | succ n ih =>
    intro i j h
    cases j with
    | zero => simp [Buffer.slice]
    | succ j => rw [Buffer.slice, List.getElem?_cons_succ, ih (by omega)]; congr 2; omega

/-- A slice is known by its bytes. -/
theorem Buffer.slice_eq {m : Buffer} {i n : Nat} {bs : List Byte} (h : bs.length = n)
    (hg : ∀ j < n, bs[j]? = some (Buffer.get m (i + j))) : Buffer.slice m i n = bs := by
  refine List.ext_getElem? fun j => ?_
  by_cases hj : j < n
  · rw [Buffer.slice_getElem? hj, hg j hj]
  · rw [List.getElem?_eq_none (by simpa using hj), List.getElem?_eq_none (by omega)]

/-- A slice one byte longer. -/
theorem Buffer.slice_succ (m : Buffer) (i n : Nat) :
    Buffer.slice m i (n + 1) = Buffer.slice m i n ++ [Buffer.get m (i + n)] := by
  refine Buffer.slice_eq (by simp) fun j hj => ?_
  by_cases h : j < n
  · rw [List.getElem?_append_left (by simpa using h), Buffer.slice_getElem? h]
  · obtain rfl : j = n := by omega
    simp

/-- A load inside the buffer answers its first bytes. -/
theorem Buffer.load_ok {capacity n : Nat} (m : Buffer) (hn : n ≤ capacity) :
    Buffer.load capacity m n = .ok (Buffer.slice m 0 n) := by
  simp [Buffer.load, Nat.not_lt.mpr hn]

/-- What a load that answers has read. -/
theorem Buffer.slice_of_load {capacity : Nat} {m : Buffer} {n : Nat} {bs : List Byte}
    (h : Buffer.load capacity m n = .ok bs) : n ≤ capacity ∧ Buffer.slice m 0 n = bs := by
  unfold Buffer.load at h
  split_ifs at h with hn
  cases h
  exact ⟨Nat.not_lt.mp hn, rfl⟩

/-- A frame stored from index 0 loads back. -/
theorem Buffer.load_store {capacity : Nat} (m : Buffer) {bs : List Byte} (h : bs.length ≤ capacity) :
    Buffer.load capacity (Buffer.store m 0 bs) bs.length = .ok bs := by
  rw [Buffer.load_ok _ h, Buffer.slice_store]

/-! ### Reset -/

/-- The buffers of the reset state are in canonical form. -/
theorem reset_buffers_wf :
    Buffer.Wf Config.payloadCapacity State.reset.P.pbuf ∧ Buffer.Wf Config.txCapacity State.reset.D.txbuf := by
  decide

end Sys2Proof.Machine
end

