-- ==== Sys2Proof/Laws/Codec.lean ====
section
/-! SUPPORT. The checksum arithmetic, the shape of a frame, and what the decoder reads from one. -/

namespace Sys2Proof

/-! ### Sums -/

@[simp] theorem sum8_nil : sum8 [] = 0 := rfl

@[simp] theorem sum8_cons (b : Byte) (bs : List Byte) : sum8 (b :: bs) = b + sum8 bs := by
  simp [sum8, BitVec.ofNat_add]

@[simp] theorem sum8_append (xs ys : List Byte) : sum8 (xs ++ ys) = sum8 xs + sum8 ys := by
  simp [sum8, BitVec.ofNat_add]

theorem sum8_toNat (bs : List Byte) : (sum8 bs).toNat = (bs.map BitVec.toNat).sum % 256 := by
  simp [sum8]

theorem checksumOf_toNat (body : List Byte) :
    (checksumOf body).toNat = 255 - (body.map BitVec.toNat).sum % 256 := by
  have h := sum8_toNat body
  simp only [checksumOf]
  rw [BitVec.toNat_sub, h]
  simp
  omega

/-- The checksum as R67 and R93 write it. -/
theorem checksumOf_eq (body : List Byte) :
    checksumOf body = BitVec.ofNat 8 (255 - (body.map BitVec.toNat).sum % 256) := by
  apply BitVec.eq_of_toNat_eq
  rw [checksumOf_toNat, BitVec.toNat_ofNat]
  omega

/-- The sum with a last byte is 0xFF exactly when that byte is the checksum (R95). -/
theorem sum8_add_eq_ff (body : List Byte) (c : Byte) : sum8 body + c = 0xFF ↔ c = checksumOf body := by
  simp only [checksumOf]
  generalize sum8 body = s
  constructor
  · intro h; rw [show (255 : Byte) = s + c from h.symm]; exact (by simp [BitVec.add_comm s c])
  · rintro rfl; rw [BitVec.add_comm]; exact BitVec.sub_add_cancel 255 s

/-! ### Frames -/

@[simp] theorem buildFrame_length (id code : Byte) (payload : List Byte) :
    (buildFrame id code payload).length = payload.length + 6 := by
  simp [buildFrame, frameBody]

theorem buildFrame_eq (id code : Byte) (payload : List Byte) :
    buildFrame id code payload =
      Config.marker :: Config.marker :: id :: BitVec.ofNat 8 (payload.length + 2) :: code ::
        (payload ++ [checksumOf (frameBody id code payload)]) := by
  simp [buildFrame, frameBody]

theorem lengthByte_toNat {n : Nat} (h : n ≤ 253) : (BitVec.ofNat 8 (n + 2)).toNat = n + 2 := by
  simp; omega

/-- From `device_id` through the checksum a frame sums to 0xFF (R95). -/
theorem sum8_buildFrame (id code : Byte) (payload : List Byte) :
    sum8 ((buildFrame id code payload).drop 2) = 0xFF := by
  have : (buildFrame id code payload).drop 2 =
      frameBody id code payload ++ [checksumOf (frameBody id code payload)] := by
    simp [buildFrame]
  rw [this, sum8_append, sum8_cons, sum8_nil]
  simpa using (sum8_add_eq_ff (frameBody id code payload) _).mpr rfl

/-! ### Decoding frames -/

/-- Distinct codes name their commands (R8). -/
theorem commandOf_code {p : Params} (h : p.Valid) (c : Cmd) : commandOf p (p.code c) = some c := by
  have hn := h.2.1
  simp only [Cmd.all, List.map_cons, List.map_nil, List.nodup_cons, List.mem_cons, List.not_mem_nil,
    or_false, not_or] at hn
  obtain ⟨⟨h1, h2, h3, h4, h5, h6⟩, ⟨h7, h8, h9, h10, h11⟩, ⟨h12, h13, h14, h15⟩, ⟨h16, h17, h18⟩,
    ⟨h19, h20⟩, h21, -⟩ := hn
  cases c <;> simp [commandOf, Cmd.all, *]

theorem code_of_commandOf {p : Params} {code : Byte} {c : Cmd} (h : commandOf p code = some c) :
    p.code c = code := by
  simpa using List.find?_some h

/-- The decoder reads a frame's command and payload. -/
theorem decodeFrame_buildFrame {p : Params} (hp : p.Valid) {id : Byte} (hid : idInDomain p id = true)
    {payload : List Byte} (hn : payload.length ≤ 253) (c : Cmd) :
    decodeFrame p (buildFrame id (p.code c) payload) = decodePayload p id payload c := by
  rw [buildFrame_eq]
  have hl := lengthByte_toNat hn
  simp [decodeFrame, List.dropLast_append_of_ne_nil, hid, commandOf_code hp, frameBody] at hl ⊢
  omega

theorem broadcast_inDomain (p : Params) : idInDomain p p.broadcastId = true := by
  simp [idInDomain]

/-! ### Requests -/

/-- No request decodes to a command frame. -/
theorem decodeRequest_isFrame (r : Request) : (decodeRequest r).isFrame = false := by
  have h : r.op.toNat < 32 := r.op.isLt
  unfold decodeRequest
  generalize r.op.toNat = n at h
  interval_cases n <;> rfl

/-! ### SYNC_WRITE payloads -/

/-- The devices of a payload built from as many values as ids, all of width `k`, are read back. -/
theorem parseEntries_zip {k : Nat} : ∀ {n : Nat} {ids : List Byte} {values : List (List Byte)},
    ids.length = values.length → (∀ v ∈ values, v.length = k) → ids.length ≤ n →
      parseEntries k n ((ids.zip values).flatMap fun e => e.1 :: e.2) = some (ids, values) := by
  intro n
  induction n with
  | zero =>
    intro ids values h _ hn
    have : ids = [] := List.length_eq_zero_iff.mp (Nat.le_zero.mp hn)
    subst this
    have : values = [] := List.length_eq_zero_iff.mp (by simpa using h.symm)
    subst this
    rfl
  | succ n ih =>
    intro ids values h hk hn
    cases ids with
    | nil =>
      have : values = [] := List.length_eq_zero_iff.mp (by simpa using h.symm)
      subst this
      rfl
    | cons i ids =>
      cases values with
      | nil => simp at h
      | cons v values =>
        have hv : v.length = k := hk v (List.mem_cons_self ..)
        have := ih (ids := ids) (values := values) (by simpa using h)
          (fun w hw => hk w (List.mem_cons_of_mem _ hw)) (by simpa using hn)
        simp [parseEntries, ← hv] at this ⊢
        simp [this]

theorem length_flatMap_zip {k : Nat} : ∀ {ids : List Byte} {values : List (List Byte)},
    ids.length = values.length → (∀ v ∈ values, v.length = k) →
      ((ids.zip values).flatMap fun e => e.1 :: e.2).length = ids.length * (1 + k) := by
  intro ids
  induction ids with
  | nil => intros; simp
  | cons i ids ih =>
    intro values h hk
    cases values with
    | nil => simp at h
    | cons v values =>
      have := ih (values := values) (by simpa using h) fun w hw => hk w (List.mem_cons_of_mem _ hw)
      have hv := hk v (List.mem_cons_self ..)
      simp only [List.zip_cons_cons, List.flatMap_cons, List.length_append, List.length_cons, this, hv]
      ring

theorem syncPayload_length {offset : Byte} {ids : List Byte} {values : List (List Byte)}
    (h : syncShapeOk ids values = true) :
    (syncPayload offset ids values).length = syncPayloadLength ids values := by
  simp only [syncShapeOk, Bool.and_eq_true, decide_eq_true_eq, List.all_eq_true, beq_iff_eq] at h
  have := length_flatMap_zip (k := (values.headD []).length) h.1.1 h.2
  simp only [syncPayload, syncPayloadLength, List.length_append, this]
  simp

end Sys2Proof

namespace Sys2Proof.Machine

/-- What ENCODE's computation can answer (R97, R98). -/
theorem encodeCommand_ok_iff {p : Params} {id : Byte} {c : Cmd} {payload f : List Byte} :
    encodeCommand p id c payload = .ok f ↔
      idInDomain p id = true ∧ payload.length ≤ 253 ∧ f = buildFrame id (p.code c) payload := by
  unfold encodeCommand maxPayload
  split_ifs with h1 h2
  · simp_all
  · simp; omega
  · simp at h1 h2
    constructor
    · intro h; cases h; exact ⟨h1, h2, rfl⟩
    · rintro ⟨-, -, rfl⟩; rfl

end Sys2Proof.Machine
end

