-- ==== Sys2Proof/Laws/State.lean ====
section
/-! SUPPORT. One lemma per field per update of the state, so that no proof unfolds a record update. -/

namespace Sys2Proof.Machine

/-! ### txWrite -/

@[simp] theorem txWrite_params (frame : List Byte) (s : State) : (txWrite frame s).params = s.params := rfl
@[simp] theorem txWrite_P (frame : List Byte) (s : State) : (txWrite frame s).P = s.P := rfl
@[simp] theorem txWrite_D (frame : List Byte) (s : State) : (txWrite frame s).D = s.D := rfl
@[simp] theorem txWrite_env_host (frame : List Byte) (s : State) :
    (txWrite frame s).env.host = s.env.host := rfl
@[simp] theorem txWrite_env_replies (frame : List Byte) (s : State) :
    (txWrite frame s).env.replies = s.env.replies := rfl
@[simp] theorem txWrite_env_sent (frame : List Byte) (s : State) :
    (txWrite frame s).env.sent = s.env.sent ++ [frame] := rfl
@[simp] theorem txWrite_env_rx (frame : List Byte) (s : State) : (txWrite frame s).env.rx = s.env.rx := rfl
@[simp] theorem txWrite_env_rxTail (frame : List Byte) (s : State) :
    (txWrite frame s).env.rxTail = s.env.rxTail := rfl

/-! ### endOp -/

@[simp] theorem endOp_params (r : Result) (log : List ScanEvent) (s : State) :
    (endOp r log s).params = s.params := rfl
@[simp] theorem endOp_P (r : Result) (log : List ScanEvent) (s : State) : (endOp r log s).P = s.P := rfl
@[simp] theorem endOp_D_phase (r : Result) (log : List ScanEvent) (s : State) :
    (endOp r log s).D.phase = .idle := rfl
@[simp] theorem endOp_D_activity (r : Result) (log : List ScanEvent) (s : State) :
    (endOp r log s).D.activity = .none := rfl
@[simp] theorem endOp_D_result (r : Result) (log : List ScanEvent) (s : State) :
    (endOp r log s).D.result = r := rfl
@[simp] theorem endOp_D_verbosity (r : Result) (log : List ScanEvent) (s : State) :
    (endOp r log s).D.verbosity = s.D.verbosity := rfl
@[simp] theorem endOp_D_txbuf (r : Result) (log : List ScanEvent) (s : State) :
    (endOp r log s).D.txbuf = s.D.txbuf := rfl
@[simp] theorem endOp_D_txlen (r : Result) (log : List ScanEvent) (s : State) :
    (endOp r log s).D.txlen = s.D.txlen := rfl
@[simp] theorem endOp_D_scanId (r : Result) (log : List ScanEvent) (s : State) :
    (endOp r log s).D.scanId = s.D.scanId := rfl
@[simp] theorem endOp_D_scanEnd (r : Result) (log : List ScanEvent) (s : State) :
    (endOp r log s).D.scanEnd = s.D.scanEnd := rfl
@[simp] theorem endOp_D_scanFound (r : Result) (log : List ScanEvent) (s : State) :
    (endOp r log s).D.scanFound = s.D.scanFound := rfl
@[simp] theorem endOp_D_scanLog (r : Result) (log : List ScanEvent) (s : State) :
    (endOp r log s).D.scanLog = s.D.scanLog := rfl
@[simp] theorem endOp_env_host (r : Result) (log : List ScanEvent) (s : State) :
    (endOp r log s).env.host = s.env.host := rfl
@[simp] theorem endOp_env_replies (r : Result) (log : List ScanEvent) (s : State) :
    (endOp r log s).env.replies = s.env.replies ++ [⟨r, log⟩] := rfl
@[simp] theorem endOp_env_sent (r : Result) (log : List ScanEvent) (s : State) :
    (endOp r log s).env.sent = s.env.sent := rfl
@[simp] theorem endOp_env_rx (r : Result) (log : List ScanEvent) (s : State) :
    (endOp r log s).env.rx = s.env.rx := rfl
@[simp] theorem endOp_env_rxTail (r : Result) (log : List ScanEvent) (s : State) :
    (endOp r log s).env.rxTail = s.env.rxTail := rfl

/-! ### raise -/

@[simp] theorem raise_params (e : OpError) (s : State) : (raise e s).params = s.params := rfl
@[simp] theorem raise_P (e : OpError) (s : State) : (raise e s).P = s.P := rfl
@[simp] theorem raise_D_phase (e : OpError) (s : State) : (raise e s).D.phase = .idle := rfl
@[simp] theorem raise_D_activity (e : OpError) (s : State) : (raise e s).D.activity = .none := rfl
@[simp] theorem raise_D_result (e : OpError) (s : State) : (raise e s).D.result = .error e := rfl
@[simp] theorem raise_D_verbosity (e : OpError) (s : State) : (raise e s).D.verbosity = s.D.verbosity := rfl
@[simp] theorem raise_D_txbuf (e : OpError) (s : State) : (raise e s).D.txbuf = s.D.txbuf := rfl
@[simp] theorem raise_D_txlen (e : OpError) (s : State) : (raise e s).D.txlen = s.D.txlen := rfl
@[simp] theorem raise_D_scanId (e : OpError) (s : State) : (raise e s).D.scanId = s.D.scanId := rfl
@[simp] theorem raise_D_scanEnd (e : OpError) (s : State) : (raise e s).D.scanEnd = s.D.scanEnd := rfl
@[simp] theorem raise_D_scanFound (e : OpError) (s : State) : (raise e s).D.scanFound = s.D.scanFound := rfl
@[simp] theorem raise_D_scanLog (e : OpError) (s : State) : (raise e s).D.scanLog = s.D.scanLog := rfl
@[simp] theorem raise_env_host (e : OpError) (s : State) : (raise e s).env.host = s.env.host := rfl
@[simp] theorem raise_env_replies (e : OpError) (s : State) :
    (raise e s).env.replies = s.env.replies ++ [⟨.error e, []⟩] := rfl
@[simp] theorem raise_env_sent (e : OpError) (s : State) : (raise e s).env.sent = s.env.sent := rfl
@[simp] theorem raise_env_rx (e : OpError) (s : State) : (raise e s).env.rx = s.env.rx := rfl
@[simp] theorem raise_env_rxTail (e : OpError) (s : State) : (raise e s).env.rxTail = s.env.rxTail := rfl

/-! ### succeed -/

@[simp] theorem succeed_params (c : ErrorCode) (d : Data) (s : State) :
    (succeed c d s).params = s.params := rfl
@[simp] theorem succeed_P (c : ErrorCode) (d : Data) (s : State) : (succeed c d s).P = s.P := rfl
@[simp] theorem succeed_D_phase (c : ErrorCode) (d : Data) (s : State) :
    (succeed c d s).D.phase = .idle := rfl
@[simp] theorem succeed_D_activity (c : ErrorCode) (d : Data) (s : State) :
    (succeed c d s).D.activity = .none := rfl
@[simp] theorem succeed_D_result (c : ErrorCode) (d : Data) (s : State) :
    (succeed c d s).D.result = .ok c d := rfl
@[simp] theorem succeed_D_verbosity (c : ErrorCode) (d : Data) (s : State) :
    (succeed c d s).D.verbosity = s.D.verbosity := rfl
@[simp] theorem succeed_D_txbuf (c : ErrorCode) (d : Data) (s : State) :
    (succeed c d s).D.txbuf = s.D.txbuf := rfl
@[simp] theorem succeed_D_txlen (c : ErrorCode) (d : Data) (s : State) :
    (succeed c d s).D.txlen = s.D.txlen := rfl
@[simp] theorem succeed_D_scanId (c : ErrorCode) (d : Data) (s : State) :
    (succeed c d s).D.scanId = s.D.scanId := rfl
@[simp] theorem succeed_D_scanEnd (c : ErrorCode) (d : Data) (s : State) :
    (succeed c d s).D.scanEnd = s.D.scanEnd := rfl
@[simp] theorem succeed_D_scanFound (c : ErrorCode) (d : Data) (s : State) :
    (succeed c d s).D.scanFound = s.D.scanFound := rfl
@[simp] theorem succeed_D_scanLog (c : ErrorCode) (d : Data) (s : State) :
    (succeed c d s).D.scanLog = s.D.scanLog := rfl
@[simp] theorem succeed_env_host (c : ErrorCode) (d : Data) (s : State) :
    (succeed c d s).env.host = s.env.host := rfl
@[simp] theorem succeed_env_replies (c : ErrorCode) (d : Data) (s : State) :
    (succeed c d s).env.replies = s.env.replies ++ [⟨.ok c d, []⟩] := rfl
@[simp] theorem succeed_env_sent (c : ErrorCode) (d : Data) (s : State) :
    (succeed c d s).env.sent = s.env.sent := rfl
@[simp] theorem succeed_env_rx (c : ErrorCode) (d : Data) (s : State) :
    (succeed c d s).env.rx = s.env.rx := rfl
@[simp] theorem succeed_env_rxTail (c : ErrorCode) (d : Data) (s : State) :
    (succeed c d s).env.rxTail = s.env.rxTail := rfl

/-! ### refuseBusy -/

@[simp] theorem refuseBusy_params (s : State) : (refuseBusy s).params = s.params := rfl
@[simp] theorem refuseBusy_P (s : State) : (refuseBusy s).P = s.P := rfl
@[simp] theorem refuseBusy_D (s : State) : (refuseBusy s).D = s.D := rfl
@[simp] theorem refuseBusy_env_host (s : State) : (refuseBusy s).env.host = s.env.host := rfl
@[simp] theorem refuseBusy_env_replies (s : State) :
    (refuseBusy s).env.replies = s.env.replies ++ [⟨.error (.fault .busy), []⟩] := rfl
@[simp] theorem refuseBusy_env_sent (s : State) : (refuseBusy s).env.sent = s.env.sent := rfl
@[simp] theorem refuseBusy_env_rx (s : State) : (refuseBusy s).env.rx = s.env.rx := rfl
@[simp] theorem refuseBusy_env_rxTail (s : State) : (refuseBusy s).env.rxTail = s.env.rxTail := rfl

/-! ### loadTx -/

@[simp] theorem loadTx_params (frame : List Byte) (s : State) : (loadTx frame s).params = s.params := rfl
@[simp] theorem loadTx_P (frame : List Byte) (s : State) : (loadTx frame s).P = s.P := rfl
@[simp] theorem loadTx_D_phase (frame : List Byte) (s : State) : (loadTx frame s).D.phase = s.D.phase := rfl
@[simp] theorem loadTx_D_activity (frame : List Byte) (s : State) :
    (loadTx frame s).D.activity = s.D.activity := rfl
@[simp] theorem loadTx_D_result (frame : List Byte) (s : State) :
    (loadTx frame s).D.result = s.D.result := rfl
@[simp] theorem loadTx_D_verbosity (frame : List Byte) (s : State) :
    (loadTx frame s).D.verbosity = s.D.verbosity := rfl
@[simp] theorem loadTx_D_txbuf (frame : List Byte) (s : State) :
    (loadTx frame s).D.txbuf = Buffer.store s.D.txbuf 0 frame := rfl
@[simp] theorem loadTx_D_txlen (frame : List Byte) (s : State) :
    (loadTx frame s).D.txlen = BitVec.ofNat 9 frame.length := rfl
@[simp] theorem loadTx_D_scanId (frame : List Byte) (s : State) :
    (loadTx frame s).D.scanId = s.D.scanId := rfl
@[simp] theorem loadTx_D_scanEnd (frame : List Byte) (s : State) :
    (loadTx frame s).D.scanEnd = s.D.scanEnd := rfl
@[simp] theorem loadTx_D_scanFound (frame : List Byte) (s : State) :
    (loadTx frame s).D.scanFound = s.D.scanFound := rfl
@[simp] theorem loadTx_D_scanLog (frame : List Byte) (s : State) :
    (loadTx frame s).D.scanLog = s.D.scanLog := rfl
@[simp] theorem loadTx_env (frame : List Byte) (s : State) : (loadTx frame s).env = s.env := rfl

/-! ### launch -/

@[simp] theorem launch_params (a : Activity) (frame : List Byte) (s : State) :
    (launch a frame s).params = s.params := rfl
@[simp] theorem launch_P (a : Activity) (frame : List Byte) (s : State) : (launch a frame s).P = s.P := rfl
@[simp] theorem launch_D_phase (a : Activity) (frame : List Byte) (s : State) :
    (launch a frame s).D.phase = .tx := rfl
@[simp] theorem launch_D_activity (a : Activity) (frame : List Byte) (s : State) :
    (launch a frame s).D.activity = a := rfl
@[simp] theorem launch_D_result (a : Activity) (frame : List Byte) (s : State) :
    (launch a frame s).D.result = s.D.result := rfl
@[simp] theorem launch_D_verbosity (a : Activity) (frame : List Byte) (s : State) :
    (launch a frame s).D.verbosity = s.D.verbosity := rfl
@[simp] theorem launch_D_txbuf (a : Activity) (frame : List Byte) (s : State) :
    (launch a frame s).D.txbuf = Buffer.store s.D.txbuf 0 frame := rfl
@[simp] theorem launch_D_txlen (a : Activity) (frame : List Byte) (s : State) :
    (launch a frame s).D.txlen = BitVec.ofNat 9 frame.length := rfl
@[simp] theorem launch_D_scanId (a : Activity) (frame : List Byte) (s : State) :
    (launch a frame s).D.scanId = s.D.scanId := rfl
@[simp] theorem launch_D_scanEnd (a : Activity) (frame : List Byte) (s : State) :
    (launch a frame s).D.scanEnd = s.D.scanEnd := rfl
@[simp] theorem launch_D_scanFound (a : Activity) (frame : List Byte) (s : State) :
    (launch a frame s).D.scanFound = s.D.scanFound := rfl
@[simp] theorem launch_D_scanLog (a : Activity) (frame : List Byte) (s : State) :
    (launch a frame s).D.scanLog = s.D.scanLog := rfl
@[simp] theorem launch_env (a : Activity) (frame : List Byte) (s : State) :
    (launch a frame s).env = s.env := rfl

/-! ### scanInit -/

@[simp] theorem scanInit_params (i : Byte) (n : Nat) (s : State) : (scanInit i n s).params = s.params := rfl
@[simp] theorem scanInit_P (i : Byte) (n : Nat) (s : State) : (scanInit i n s).P = s.P := rfl
@[simp] theorem scanInit_D_phase (i : Byte) (n : Nat) (s : State) : (scanInit i n s).D.phase = s.D.phase := rfl
@[simp] theorem scanInit_D_result (i : Byte) (n : Nat) (s : State) :
    (scanInit i n s).D.result = s.D.result := rfl
@[simp] theorem scanInit_D_verbosity (i : Byte) (n : Nat) (s : State) :
    (scanInit i n s).D.verbosity = s.D.verbosity := rfl
@[simp] theorem scanInit_D_txbuf (i : Byte) (n : Nat) (s : State) : (scanInit i n s).D.txbuf = s.D.txbuf := rfl
@[simp] theorem scanInit_D_txlen (i : Byte) (n : Nat) (s : State) : (scanInit i n s).D.txlen = s.D.txlen := rfl
@[simp] theorem scanInit_D_activity (i : Byte) (n : Nat) (s : State) :
    (scanInit i n s).D.activity = .scan := rfl
@[simp] theorem scanInit_D_scanId (i : Byte) (n : Nat) (s : State) : (scanInit i n s).D.scanId = i := rfl
@[simp] theorem scanInit_D_scanEnd (i : Byte) (n : Nat) (s : State) :
    (scanInit i n s).D.scanEnd = BitVec.ofNat 9 (scanEndOf s.params i n) := rfl
@[simp] theorem scanInit_D_scanFound (i : Byte) (n : Nat) (s : State) :
    (scanInit i n s).D.scanFound = false := rfl
@[simp] theorem scanInit_D_scanLog (i : Byte) (n : Nat) (s : State) : (scanInit i n s).D.scanLog = [] := rfl
@[simp] theorem scanInit_env (i : Byte) (n : Nat) (s : State) : (scanInit i n s).env = s.env := rfl

/-! ### scanLogged -/

@[simp] theorem scanLogged_params (f : Bool) (s : State) : (scanLogged f s).params = s.params := rfl
@[simp] theorem scanLogged_P (f : Bool) (s : State) : (scanLogged f s).P = s.P := rfl
@[simp] theorem scanLogged_D_phase (f : Bool) (s : State) : (scanLogged f s).D.phase = s.D.phase := rfl
@[simp] theorem scanLogged_D_result (f : Bool) (s : State) : (scanLogged f s).D.result = s.D.result := rfl
@[simp] theorem scanLogged_D_verbosity (f : Bool) (s : State) :
    (scanLogged f s).D.verbosity = s.D.verbosity := rfl
@[simp] theorem scanLogged_D_txbuf (f : Bool) (s : State) : (scanLogged f s).D.txbuf = s.D.txbuf := rfl
@[simp] theorem scanLogged_D_txlen (f : Bool) (s : State) : (scanLogged f s).D.txlen = s.D.txlen := rfl
@[simp] theorem scanLogged_D_activity (f : Bool) (s : State) : (scanLogged f s).D.activity = s.D.activity := rfl
@[simp] theorem scanLogged_D_scanEnd (f : Bool) (s : State) : (scanLogged f s).D.scanEnd = s.D.scanEnd := rfl
@[simp] theorem scanLogged_D_scanId (f : Bool) (s : State) : (scanLogged f s).D.scanId = s.D.scanId + 1 := rfl
@[simp] theorem scanLogged_D_scanFound (f : Bool) (s : State) :
    (scanLogged f s).D.scanFound = (s.D.scanFound || f) := rfl
@[simp] theorem scanLogged_D_scanLog (f : Bool) (s : State) :
    (scanLogged f s).D.scanLog = s.D.scanLog ++ [⟨s.D.scanId, f⟩] := rfl
@[simp] theorem scanLogged_env (f : Bool) (s : State) : (scanLogged f s).env = s.env := rfl

/-! ### scanNext -/

/-- With an id left the scan stands before its next PING. -/
theorem scanNext_of_lt {s : State} (h : s.D.scanId.toNat < s.D.scanEnd.toNat) :
    scanNext s = { s with D := { s.D with phase := .scan } } := if_pos h

/-- With no id left the scan ends. -/
theorem scanNext_of_le {s : State} (h : s.D.scanEnd.toNat ≤ s.D.scanId.toNat) :
    scanNext s = endOp (.ok .none (.bool s.D.scanFound)) s.D.scanLog s := if_neg (Nat.not_lt.mpr h)

@[simp] theorem scanNext_params (s : State) : (scanNext s).params = s.params := by
  unfold scanNext; split <;> rfl
@[simp] theorem scanNext_P (s : State) : (scanNext s).P = s.P := by
  unfold scanNext; split <;> rfl
@[simp] theorem scanNext_D_verbosity (s : State) : (scanNext s).D.verbosity = s.D.verbosity := by
  unfold scanNext; split <;> rfl
@[simp] theorem scanNext_D_txbuf (s : State) : (scanNext s).D.txbuf = s.D.txbuf := by
  unfold scanNext; split <;> rfl
@[simp] theorem scanNext_D_txlen (s : State) : (scanNext s).D.txlen = s.D.txlen := by
  unfold scanNext; split <;> rfl
@[simp] theorem scanNext_D_scanId (s : State) : (scanNext s).D.scanId = s.D.scanId := by
  unfold scanNext; split <;> rfl
@[simp] theorem scanNext_D_scanEnd (s : State) : (scanNext s).D.scanEnd = s.D.scanEnd := by
  unfold scanNext; split <;> rfl
@[simp] theorem scanNext_D_scanFound (s : State) : (scanNext s).D.scanFound = s.D.scanFound := by
  unfold scanNext; split <;> rfl
@[simp] theorem scanNext_D_scanLog (s : State) : (scanNext s).D.scanLog = s.D.scanLog := by
  unfold scanNext; split <;> rfl
@[simp] theorem scanNext_env_host (s : State) : (scanNext s).env.host = s.env.host := by
  unfold scanNext; split <;> rfl
@[simp] theorem scanNext_env_sent (s : State) : (scanNext s).env.sent = s.env.sent := by
  unfold scanNext; split <;> rfl
@[simp] theorem scanNext_env_rx (s : State) : (scanNext s).env.rx = s.env.rx := by
  unfold scanNext; split <;> rfl
@[simp] theorem scanNext_env_rxTail (s : State) : (scanNext s).env.rxTail = s.env.rxTail := by
  unfold scanNext; split <;> rfl

/-! ### scanResolved -/

@[simp] theorem scanResolved_params (f : Bool) (s : State) : (scanResolved f s).params = s.params := by
  simp [scanResolved]
@[simp] theorem scanResolved_P (f : Bool) (s : State) : (scanResolved f s).P = s.P := by
  simp [scanResolved]
@[simp] theorem scanResolved_D_verbosity (f : Bool) (s : State) :
    (scanResolved f s).D.verbosity = s.D.verbosity := by
  simp [scanResolved]
@[simp] theorem scanResolved_D_txbuf (f : Bool) (s : State) : (scanResolved f s).D.txbuf = s.D.txbuf := by
  simp [scanResolved]
@[simp] theorem scanResolved_D_txlen (f : Bool) (s : State) : (scanResolved f s).D.txlen = s.D.txlen := by
  simp [scanResolved]
@[simp] theorem scanResolved_D_scanId (f : Bool) (s : State) :
    (scanResolved f s).D.scanId = s.D.scanId + 1 := by
  simp [scanResolved]
@[simp] theorem scanResolved_D_scanEnd (f : Bool) (s : State) : (scanResolved f s).D.scanEnd = s.D.scanEnd := by
  simp [scanResolved]
@[simp] theorem scanResolved_D_scanFound (f : Bool) (s : State) :
    (scanResolved f s).D.scanFound = (s.D.scanFound || f) := by
  simp [scanResolved]
@[simp] theorem scanResolved_D_scanLog (f : Bool) (s : State) :
    (scanResolved f s).D.scanLog = s.D.scanLog ++ [⟨s.D.scanId, f⟩] := by
  simp [scanResolved]
@[simp] theorem scanResolved_env_host (f : Bool) (s : State) : (scanResolved f s).env.host = s.env.host := by
  simp [scanResolved]
@[simp] theorem scanResolved_env_sent (f : Bool) (s : State) : (scanResolved f s).env.sent = s.env.sent := by
  simp [scanResolved]
@[simp] theorem scanResolved_env_rx (f : Bool) (s : State) : (scanResolved f s).env.rx = s.env.rx := by
  simp [scanResolved]
@[simp] theorem scanResolved_env_rxTail (f : Bool) (s : State) :
    (scanResolved f s).env.rxTail = s.env.rxTail := by
  simp [scanResolved]

/-! ### busError -/

@[simp] theorem busError_params (c : ErrorCode) (s : State) : (busError c s).params = s.params := rfl
@[simp] theorem busError_P (c : ErrorCode) (s : State) : (busError c s).P = s.P := rfl
@[simp] theorem busError_D_phase (c : ErrorCode) (s : State) : (busError c s).D.phase = .idle := rfl
@[simp] theorem busError_D_activity (c : ErrorCode) (s : State) : (busError c s).D.activity = .none := rfl
@[simp] theorem busError_D_result (c : ErrorCode) (s : State) :
    (busError c s).D.result = .error (.bus c) := rfl
@[simp] theorem busError_D_verbosity (c : ErrorCode) (s : State) :
    (busError c s).D.verbosity = s.D.verbosity := rfl
@[simp] theorem busError_D_txbuf (c : ErrorCode) (s : State) : (busError c s).D.txbuf = s.D.txbuf := rfl
@[simp] theorem busError_D_txlen (c : ErrorCode) (s : State) : (busError c s).D.txlen = s.D.txlen := rfl
@[simp] theorem busError_D_scanId (c : ErrorCode) (s : State) : (busError c s).D.scanId = s.D.scanId := rfl
@[simp] theorem busError_D_scanEnd (c : ErrorCode) (s : State) :
    (busError c s).D.scanEnd = s.D.scanEnd := rfl
@[simp] theorem busError_D_scanFound (c : ErrorCode) (s : State) :
    (busError c s).D.scanFound = s.D.scanFound := rfl
@[simp] theorem busError_D_scanLog (c : ErrorCode) (s : State) :
    (busError c s).D.scanLog = s.D.scanLog := rfl
@[simp] theorem busError_env_host (c : ErrorCode) (s : State) : (busError c s).env.host = s.env.host := rfl
@[simp] theorem busError_env_replies (c : ErrorCode) (s : State) :
    (busError c s).env.replies = s.env.replies ++ [⟨.error (.bus c), activityLog s⟩] := rfl
@[simp] theorem busError_env_sent (c : ErrorCode) (s : State) : (busError c s).env.sent = s.env.sent := rfl
@[simp] theorem busError_env_rx (c : ErrorCode) (s : State) : (busError c s).env.rx = s.env.rx := rfl
@[simp] theorem busError_env_rxTail (c : ErrorCode) (s : State) :
    (busError c s).env.rxTail = s.env.rxTail := rfl

/-! ### coreReset -/

@[simp] theorem coreReset_params (s : State) : (coreReset s).params = s.params := rfl
@[simp] theorem coreReset_P (s : State) : (coreReset s).P = Parser.reset := rfl
@[simp] theorem coreReset_D (s : State) : (coreReset s).D = Dispatcher.reset s.params.verbosityInit := rfl
@[simp] theorem coreReset_env (s : State) : (coreReset s).env = s.env := rfl

/-! ### A cleared parser -/

@[simp] theorem cleared_state (P : Parser) : P.cleared.state = .seek1 := rfl
@[simp] theorem cleared_devId (P : Parser) : P.cleared.devId = 0 := rfl
@[simp] theorem cleared_length (P : Parser) : P.cleared.length = 0 := rfl
@[simp] theorem cleared_statusRaw (P : Parser) : P.cleared.statusRaw = 0 := rfl
@[simp] theorem cleared_idx (P : Parser) : P.cleared.idx = 0 := rfl
@[simp] theorem cleared_sum (P : Parser) : P.cleared.sum = 0 := rfl
@[simp] theorem cleared_code (P : Parser) : P.cleared.code = .notDone := rfl
@[simp] theorem cleared_pbuf (P : Parser) : P.cleared.pbuf = P.pbuf := rfl

@[simp] theorem cleared_cleared (P : Parser) : P.cleared.cleared = P.cleared := rfl
@[simp] theorem cleared_done (P : Parser) : P.cleared.done = false := rfl

end Sys2Proof.Machine
end

