-- ==== Sys2Proof/Laws/Exec.lean ====
section
/-! SUPPORT. One lemma per shared operation of the meanings: everything it can answer. -/

namespace Sys2Proof.Machine

theorem accept_idle {s : State} (h : s.D.phase = .idle) (op : State → StepOutcome) : accept s op = op s := by
  simp [accept, h]

theorem accept_busy {s : State} (h : s.D.phase ≠ .idle) (op : State → StepOutcome) :
    accept s op = .next (refuseBusy s) := by
  simp [accept, h]

/-- An operation that answers next was run in IDLE, or was answered F_BUSY. -/
theorem accept_next {s t : State} {op : State → StepOutcome} (h : accept s op = .next t) :
    (s.D.phase = .idle ∧ op s = .next t) ∨ (s.D.phase ≠ .idle ∧ t = refuseBusy s) := by
  unfold accept at h
  split_ifs at h with hp
  · exact .inl ⟨hp, h⟩
  · cases h; exact .inr ⟨hp, rfl⟩

theorem whenComplete_next {s t : State} {op : State → StepOutcome} (h : whenComplete s op = .next t) :
    (s.D.phase = .idle ∧ s.P.isComplete = true ∧ op s = .next t) ∨
      (s.D.phase = .idle ∧ s.P.isComplete = false ∧ t = raise (.fault .notComplete) s) ∨
      (s.D.phase ≠ .idle ∧ t = refuseBusy s) := by
  rcases accept_next h with ⟨hp, h⟩ | h
  · split_ifs at h with hc
    · exact .inl ⟨hp, hc, h⟩
    · cases h; exact .inr (.inl ⟨hp, by simpa using hc, rfl⟩)
  · exact .inr (.inr h)

/-- The start of a dispatcher operation always answers next: with its frame in TXBUF, or with the validation
error. -/
theorem startCommand_cases (a : Activity) (id : Byte) (c : Cmd) (payload : List Byte) (s : State) :
    (∃ f, encodeCommand s.params id c payload = .ok f ∧ startCommand a id c payload s = .next (launch a f s)) ∨
      (∃ k, encodeCommand s.params id c payload = .error k ∧
        startCommand a id c payload s = .next (raise (.validation k) s)) := by
  unfold startCommand
  cases h : encodeCommand s.params id c payload with
  | ok f => exact .inl ⟨f, rfl, rfl⟩
  | error k => exact .inr ⟨k, rfl, rfl⟩

/-- A transmission that answers next was made in phase TX. -/
theorem transmit_next {id : Byte} {c : Cmd} {payload : List Byte} {reply : Bool} {s t : State}
    (h : transmit id c payload reply s = .next t) :
    s.D.phase = .tx ∧
      ((reply = true ∧ t = { s with
          P := s.P.cleared
          D := { s.D with phase := .rx }
          env := { s.env with sent := s.env.sent ++ [buildFrame id (s.params.code c) payload] } }) ∨
        (reply = false ∧ t = succeed .none .empty (txWrite (buildFrame id (s.params.code c) payload) s))) := by
  unfold transmit at h
  split_ifs at h with hp hr
  · cases h; exact ⟨hp, .inl ⟨hr, rfl⟩⟩
  · cases h; exact ⟨hp, .inr ⟨by simpa using hr, rfl⟩⟩

/-- A turn of SCAN's loop always answers next: its PING is out and the reply awaited, or ENCODE's error ends it. -/
theorem scanTurn_of_ok {s : State} {f : List Byte} (h : encodeCommand s.params s.D.scanId .ping [] = .ok f) :
    scanTurn s = .next { s with
      P := s.P.cleared
      D := { (launch .scan f s).D with phase := .rx }
      env := { s.env with sent := s.env.sent ++ [f] } } := by
  obtain ⟨-, -, rfl⟩ := encodeCommand_ok_iff.mp h
  simp only [scanTurn, h, transmit, launch_D_phase, if_true]
  rfl

theorem scanTurn_of_error {s : State} {k : ValidationKind}
    (h : encodeCommand s.params s.D.scanId .ping [] = .error k) :
    scanTurn s = .next (endOp (.error (.validation k)) s.D.scanLog s) := by
  simp only [scanTurn, h]

/-- A reserved selector answers next in every phase. -/
theorem illegalOp_next (s : State) : ∃ t, illegalOp s = .next t := by
  unfold illegalOp accept
  split_ifs <;> exact ⟨_, rfl⟩

/-- What the transport's next answer leaves behind: only its own two fields change. -/
theorem rxRead_frame (s : State) :
    ∃ rx tail, (rxRead s).2 = { s with env := { s.env with rx := rx, rxTail := tail } } := by
  unfold rxRead
  split
  · exact ⟨_, _, rfl⟩
  · split
    · exact ⟨s.env.rx, s.env.rxTail, rfl⟩
    · exact ⟨_, _, rfl⟩
    · exact ⟨s.env.rx, _, rfl⟩

theorem rxRead_cons {s : State} {a : Option Byte} {rest : List (Option Byte)} (h : s.env.rx = a :: rest) :
    rxRead s = (a, { s with env := { s.env with rx := rest } }) := by
  simp [rxRead, h]

end Sys2Proof.Machine
end

