-- ==== Sys2Proof/Laws/Parser.lean ====
section
/-! SUPPORT. The parser: one lemma per state for its next-state function, feeding lists, and what a frame's payload
bytes do. -/

namespace Sys2Proof.Machine

/-! ### One byte, by state -/

theorem pstep_seek1 {p : Params} {P : Parser} {b : Byte} (h : P.state = .seek1) :
    pstep p P b = .ok (pstepSeek1 P b) := by simp [pstep, h]

theorem pstep_seek2 {p : Params} {P : Parser} {b : Byte} (h : P.state = .seek2) :
    pstep p P b = .ok (pstepSeek2 p P b) := by simp [pstep, h]

theorem pstep_id {p : Params} {P : Parser} {b : Byte} (h : P.state = .id) :
    pstep p P b = .ok (pstepId P b) := by simp [pstep, h]

theorem pstep_len {p : Params} {P : Parser} {b : Byte} (h : P.state = .len) :
    pstep p P b = .ok (pstepLen p P b) := by simp [pstep, h]

theorem pstep_status {p : Params} {P : Parser} {b : Byte} (h : P.state = .status) :
    pstep p P b = .ok (pstepStatus P b) := by simp [pstep, h]

theorem npay_le (P : Parser) : npay P ≤ 253 := by
  have := P.length.isLt
  simp only [npay]; omega

theorem pstep_payload {p : Params} {P : Parser} {b : Byte} (h : P.state = .payload)
    (hi : P.idx.toNat < 253) :
    pstep p P b = .ok { P with
      pbuf := Buffer.set P.pbuf P.idx.toNat b
      idx := P.idx + 1
      sum := P.sum + b
      state := if P.idx.toNat + 1 = npay P then .check else .payload } := by
  simp [pstep, h, pstepPayload, Config.payloadCapacity, hi]

theorem pstep_check {p : Params} {P : Parser} {b : Byte} (h : P.state = .check) :
    pstep p P b = .ok (pstepCheck p P b) := by simp [pstep, h]

theorem pstep_terminal {p : Params} {P : Parser} {b : Byte} (h : P.done = true) :
    pstep p P b = .error .parserTerminal := by
  simp only [Parser.done, Bool.or_eq_true, beq_iff_eq] at h
  rcases h with h | h <;> simp [pstep, h]

/-- The two ways `pstep` has no answer: a terminal parser, and an index outside PBUF. -/
theorem pstep_total {p : Params} {P : Parser} {b : Byte} (hd : P.done = false)
    (hi : P.state = .payload → P.idx.toNat < 253) : ∃ P', pstep p P b = .ok P' := by
  cases h : P.state with
  | payload => exact ⟨_, pstep_payload h (hi h)⟩
  | complete => simp [Parser.done, h] at hd
  | failed => simp [Parser.done, h] at hd
  | _ => simp [pstep, h]

/-! ### Feeding bytes -/

@[simp] theorem feed_nil (p : Params) (P : Parser) : feed p P [] = .ok P := rfl

theorem feed_cons_of_ok {p : Params} {P P' : Parser} {b : Byte} (h : pstep p P b = .ok P') (bs : List Byte) :
    feed p P (b :: bs) = feed p P' bs := by
  simp [feed, h]

theorem feed_append_of_ok {p : Params} : ∀ {xs : List Byte} {P P' : Parser},
    feed p P xs = .ok P' → ∀ ys, feed p P (xs ++ ys) = feed p P' ys := by
  intro xs
  induction xs with
  | nil => intro P P' h ys; cases h; rfl
  | cons x xs ih =>
    intro P P' h ys
    simp only [feed, List.cons_append] at h ⊢
    cases hp : pstep p P x with
    | ok Q => simp only [hp] at h ⊢; exact ih h ys
    | error f => simp [hp] at h

/-- The parser after the preamble. -/
theorem feed_preamble {p : Params} {P : Parser} (h : P.state = .seek1) (bs : List Byte) :
    feed p P (Config.marker :: Config.marker :: bs) = feed p { P with state := .id } bs := by
  rw [feed_cons_of_ok (pstep_seek1 h), feed_cons_of_ok (pstep_seek2 (by simp [pstepSeek1]))]
  simp [pstepSeek1, pstepSeek2]

/-- The registers after a run of payload bytes in PAYLOAD, no more than are declared. -/
theorem feed_payload {p : Params} : ∀ {bs : List Byte} {P : Parser}, P.state = .payload →
    P.idx.toNat + bs.length ≤ npay P → bs ≠ [] →
    feed p P bs = .ok { P with
      pbuf := Buffer.store P.pbuf P.idx.toNat bs
      idx := P.idx + BitVec.ofNat 8 bs.length
      sum := P.sum + sum8 bs
      state := if P.idx.toNat + bs.length = npay P then .check else .payload } := by
  intro bs
  induction bs with
  | nil => intro P _ _ h; exact absurd rfl h
  | cons b bs ih =>
    intro P hs hn _
    have h253 := npay_le P
    simp only [List.length_cons] at hn
    rw [feed_cons_of_ok (pstep_payload hs (by omega))]
    cases bs with
    | nil => simp [Buffer.store]
    | cons c cs =>
      simp only [List.length_cons] at hn
      have hne : ¬ P.idx.toNat + 1 = npay P := by omega
      have hidx : (P.idx + 1).toNat = P.idx.toNat + 1 := by
        rw [BitVec.toNat_add]; simp; omega
      rw [ih (by simp [hne]) (by simp only [npay] at hn ⊢; simp only [List.length_cons, hidx]; omega) (by simp)]
      simp only [hidx, Buffer.store, sum8_cons b, List.length_cons, npay]
      congr 2
      · exact if_congr (by omega) rfl rfl
      · rw [BitVec.add_assoc, Nat.add_comm (cs.length + 1) 1, BitVec.ofNat_add 1 (cs.length + 1)]
        rfl
      · rw [BitVec.add_assoc, sum8_cons]

end Sys2Proof.Machine
end

