-- ==== Sys2Proof/Laws/Dispatch.lean ====
section
/-! SUPPORT. Each host operation in a busy block, and in IDLE, unfolded once to the shared operations. -/

namespace Sys2Proof.Machine

variable {s : State}

theorem exec_parserClear_idle (h : s.D.phase = .idle) :
    exec .parserClear s = .next (succeed .none .empty { s with P := s.P.cleared }) := by
  simp only [exec, execParserClear, accept_idle h]

theorem exec_checksum_idle (h : s.D.phase = .idle) (bytes : List Byte) :
    exec (.checksum bytes) s = .next (succeed .none (.byte (checksumOf bytes)) s) := by
  simp only [exec, execChecksum, accept_idle h]

theorem exec_validate_idle (h : s.D.phase = .idle) (frame : List Byte) :
    exec (.validate frame) s = .next (succeed .none (.bool (validFrame frame)) s) := by
  simp only [exec, execValidate, accept_idle h]

theorem exec_ping_idle (h : s.D.phase = .idle) (id : Byte) :
    exec (.ping id) s = startCommand .ping id .ping [] s := by
  simp only [exec, execPing, accept_idle h]

theorem exec_read_idle (h : s.D.phase = .idle) (id offset count : Byte) :
    exec (.read id offset count) s = startCommand .read id .read [offset, count] s := by
  simp only [exec, execRead, accept_idle h]

theorem exec_write_idle (h : s.D.phase = .idle) (id offset : Byte) (data : List Byte) :
    exec (.write id offset data) s = startCommand .write id .write (offset :: data) s := by
  simp only [exec, execWrite, accept_idle h]

theorem exec_regWrite_idle (h : s.D.phase = .idle) (id offset : Byte) (data : List Byte) :
    exec (.regWrite id offset data) s = startCommand .regWrite id .regWrite (offset :: data) s := by
  simp only [exec, execRegWrite, accept_idle h]

theorem exec_resetDevice_idle (h : s.D.phase = .idle) (id : Byte) :
    exec (.resetDevice id) s = startCommand .reset id .reset [] s := by
  simp only [exec, execResetDevice, accept_idle h]

theorem exec_action_idle (h : s.D.phase = .idle) :
    exec .action s = startCommand .action s.params.broadcastId .action [] s := by
  simp only [exec, execAction, accept_idle h]

theorem exec_syncWrite_refused (h : s.D.phase = .idle) {ids : List Byte} (offset : Byte)
    {values : List (List Byte)} {k : ValidationKind} (hk : syncCheck ids values = some k) :
    exec (.syncWrite ids offset values) s = .next (raise (.validation k) s) := by
  simp only [exec, execSyncWrite, accept_idle h, hk]

theorem exec_syncWrite_idle (h : s.D.phase = .idle) {ids : List Byte} (offset : Byte)
    {values : List (List Byte)} (hk : syncCheck ids values = none) :
    exec (.syncWrite ids offset values) s =
      startCommand .syncWrite s.params.broadcastId .syncWrite (syncPayload offset ids values) s := by
  simp only [exec, execSyncWrite, accept_idle h, hk]

theorem exec_scan_idle (h : s.D.phase = .idle) (startId : Byte) (count : Nat) :
    exec (.scan startId count) s = .next (scanNext (scanInit startId count s)) := by
  simp only [exec, execScan, accept_idle h]

theorem exec_encode_idle (h : s.D.phase = .idle) {id : Byte} {cmd : BitVec 3} {payload f : List Byte} {c : Cmd}
    (hc : cmdOfSelector cmd = some c) (hf : encodeCommand s.params id c payload = .ok f) :
    exec (.encodeOp id cmd payload) s = .next (succeed .none (.bytes f) (loadTx f s)) := by
  simp only [exec, execEncode, accept_idle h, hc, hf]

theorem exec_processByte_idle (h : s.D.phase = .idle) {b : Byte} {P' : Parser} (hd : s.P.done = false)
    (hs : pstep s.params s.P b = .ok P') :
    exec (.processByte b) s = .next (succeed P'.code (.byte (outcome P').tag) { s with P := P' }) := by
  simp [exec, execProcessByte, accept_idle h, hd, hs]

theorem exec_getPayload_complete (h : s.D.phase = .idle) (hc : s.P.state = .complete)
    (hi : s.P.idx.toNat ≤ Config.payloadCapacity) :
    exec .getPayload s = .next (succeed .none (.bytes (Buffer.slice s.P.pbuf 0 s.P.idx.toNat)) s) := by
  simp [exec, execGetPayload, whenComplete, accept_idle h, Parser.isComplete, hc, payloadOf, Buffer.load_ok _ hi]

/-- A reserved selector is one shared operation. -/
theorem exec_reserved06 (s : State) : exec .reserved06 s = illegalOp s := rfl
theorem exec_reserved07 (s : State) : exec .reserved07 s = illegalOp s := rfl
theorem exec_reserved0b (s : State) : exec .reserved0b s = illegalOp s := rfl
theorem exec_reserved0c (s : State) : exec .reserved0c s = illegalOp s := rfl
theorem exec_reserved0d (s : State) : exec .reserved0d s = illegalOp s := rfl
theorem exec_reserved0e (s : State) : exec .reserved0e s = illegalOp s := rfl
theorem exec_reserved0f (s : State) : exec .reserved0f s = illegalOp s := rfl
theorem exec_reserved18 (s : State) : exec .reserved18 s = illegalOp s := rfl
theorem exec_reserved19 (s : State) : exec .reserved19 s = illegalOp s := rfl
theorem exec_reserved1a (s : State) : exec .reserved1a s = illegalOp s := rfl
theorem exec_reserved1b (s : State) : exec .reserved1b s = illegalOp s := rfl
theorem exec_reserved1c (s : State) : exec .reserved1c s = illegalOp s := rfl
theorem exec_reserved1d (s : State) : exec .reserved1d s = illegalOp s := rfl
theorem exec_reserved1e (s : State) : exec .reserved1e s = illegalOp s := rfl
theorem exec_reserved1f (s : State) : exec .reserved1f s = illegalOp s := rfl

theorem illegalOp_idle (h : s.D.phase = .idle) : illegalOp s = .next (raise (.fault .illegalOp) s) :=
  accept_idle h _

theorem illegalOp_busy (h : s.D.phase ≠ .idle) : illegalOp s = .next (refuseBusy s) :=
  accept_busy h _

/-- A host operation in a busy block is answered F_BUSY, whatever it is. -/
theorem exec_busy {i : Instr} (hi : i.isFrame = false) (hp : s.D.phase ≠ .idle) :
    exec i s = .next (refuseBusy s) := by
  cases i
  case cmdPing | cmdRead | cmdWrite | cmdRegWrite | cmdAction | cmdReset | cmdSyncWrite => cases hi
  all_goals first
    | exact illegalOp_busy hp
    | simp only [exec, execParserClear, execProcessByte, execGetDeviceId, execGetErrorCode, execGetPayload,
        execGetStatusRaw, whenComplete, execChecksum, execValidate, execEncode, execPing, execRead, execWrite,
        execRegWrite, execResetDevice, execAction, execSyncWrite, execScan, accept_busy hp]

end Sys2Proof.Machine
end

