-- ==== Sys2Proof/Laws/Step.lean ====
section
/-! SUPPORT. What a step does, by what the fetch answers. -/

namespace Sys2Proof.Machine

theorem step_run {s t : State} {c : Code} {i : Instr} (hf : fetch s = .ok (.run c, t))
    (hd : decode t.params c = .ok i) : step s = exec i t := by
  simp [step, hf, hd]

theorem step_reset {s t : State} (hf : fetch s = .ok (.reset, t)) : step s = .next (coreReset t) := by
  simp [step, hf]

theorem step_receive {s t : State} (hf : fetch s = .ok (.receive, t)) : step s = receive t := by
  simp [step, hf]

theorem step_scan {s t : State} (hf : fetch s = .ok (.scan, t)) : step s = scanTurn t := by
  simp [step, hf]

theorem step_wait {s t : State} (hf : fetch s = .ok (.wait, t)) : step s = .next t := by
  simp [step, hf]

/-! ### The fetch with a host that has nothing due -/

/-- In an operation the core makes its own next step while the host waits. -/
theorem fetch_core {s : State} {u : Turn} (hp : s.D.phase ≠ .idle) (hh : NothingDue s.env.host)
    (hc : coreTurn s = .ok u) : fetch s = .ok (u, s) := by
  unfold fetch
  cases he : s.env.host with
  | nil => simp [hc]
  | cons e rest =>
    obtain ⟨due, act⟩ := e
    obtain rfl : due = none := hh ⟨due, act⟩ (by simp [he])
    simp [hc, hp]

theorem fetch_rx {s : State} (hp : s.D.phase = .rx) (hh : NothingDue s.env.host) : fetch s = .ok (.receive, s) :=
  fetch_core (by simp [hp]) hh (by simp [coreTurn, hp])

theorem fetch_scan {s : State} (hp : s.D.phase = .scan) (hh : NothingDue s.env.host) : fetch s = .ok (.scan, s) :=
  fetch_core (by simp [hp]) hh (by simp [coreTurn, hp])

theorem fetch_tx {s : State} {f : List Byte} (hp : s.D.phase = .tx) (hh : NothingDue s.env.host)
    (hf : txFrame s = .ok f) : fetch s = .ok (.run (.frame f), s) :=
  fetch_core (by simp [hp]) hh (by simp [coreTurn, hp, hf])

/-- An act due at once is taken in any phase. -/
theorem fetch_due {s : State} {act : HostAct} {rest : List HostEvent} (hh : s.env.host = ⟨some 0, act⟩ :: rest) :
    fetch s = .ok (hostTurn act, { s with env := { s.env with host := rest } }) := by
  simp [fetch, hh]

theorem fetch_request {s : State} {r : Request} {rest : List HostEvent} (hp : s.D.phase = .idle)
    (hh : s.env.host = ⟨none, .op r⟩ :: rest) :
    fetch s = .ok (.run (.request r), { s with env := { s.env with host := rest } }) := by
  simp [fetch, hh, hp, hostTurn]

/-- The fetch changes nothing but the host's schedule. -/
theorem fetch_frame {s t : State} {u : Turn} (h : fetch s = .ok (u, t)) :
    ∃ es, t = { s with env := { s.env with host := es } } := by
  unfold fetch at h
  dsimp only at h
  split at h
  · split at h <;> cases h; exact ⟨s.env.host, rfl⟩
  · split at h
    · cases h; exact ⟨_, rfl⟩
    · split at h <;> cases h; exact ⟨s.env.host, rfl⟩
  · cases h; exact ⟨_, rfl⟩
  · split at h <;> cases h; exact ⟨_, rfl⟩

/-- Which turn the fetch answers: an act of the host, or the core's own by phase. -/
theorem fetch_turn {s t : State} {u : Turn} (h : fetch s = .ok (u, t)) :
    (∃ act, u = hostTurn act) ∨ coreTurn s = .ok u := by
  unfold fetch at h
  dsimp only at h
  split at h
  · split at h <;> cases h; exact .inr ‹_›
  · split at h
    · cases h; exact .inl ⟨_, rfl⟩
    · split at h <;> cases h; exact .inr ‹_›
  · cases h; exact .inl ⟨_, rfl⟩
  · split at h <;> cases h; exact .inr ‹_›

end Sys2Proof.Machine
end

