-- ==== Sys2Proof/Laws/Inversion.lean ====
section
/-! SUPPORT. Said once: everything `exec` and `step` can do when they answer a next state. -/

namespace Sys2Proof.Machine

/-- The next states of `exec i s`. -/
inductive ExecNext (i : Instr) (s : State) : State → Prop
  /-- F_BUSY. -/
  | busy : i.isFrame = false → s.D.phase ≠ .idle → ExecNext i s (refuseBusy s)
  /-- An operation that only gives a result: the codec's, the accessors, and every error. -/
  | answer (r : Result) : i.isFrame = false → s.D.phase = .idle → ResultInv r → ExecNext i s (endOp r [] s)
  /-- ENCODE. -/
  | load (f : List Byte) : i.isFrame = false → s.D.phase = .idle → f.length ≤ Config.txCapacity →
      ExecNext i s (succeed .none (.bytes f) (loadTx f s))
  /-- PARSER_CLEAR. -/
  | clear : i.isFrame = false → s.D.phase = .idle →
      ExecNext i s (succeed .none .empty { s with P := s.P.cleared })
  /-- PROCESS_BYTE. -/
  | byte (b : Byte) (P' : Parser) : i.isFrame = false → s.D.phase = .idle → s.P.done = false →
      pstep s.params s.P b = .ok P' →
      ExecNext i s (succeed P'.code (.byte (outcome P').tag) { s with P := P' })
  /-- A dispatcher operation has its command frame `j` in TXBUF. -/
  | start (a : Activity) (j : Instr) (f : List Byte) : i.isFrame = false → s.D.phase = .idle → a ≠ .scan →
      Carries a j → wellFormed s.params j = true → encode s.params j = .frame f →
      f.length ≤ Config.txCapacity → ExecNext i s (launch a f s)
  /-- SCAN. -/
  | scan (startId : Byte) (count : Nat) : i.isFrame = false → s.D.phase = .idle →
      ExecNext i s (scanNext (scanInit startId count s))
  /-- A command frame whose reply is awaited. -/
  | await (f : List Byte) : i.isFrame = true → s.D.phase = .tx → encode s.params i = .frame f →
      (∀ a, Carries a i → a ∈ [Activity.ping, .read, .write, .regWrite, .reset]) →
      ExecNext i s { s with
        P := s.P.cleared
        D := { s.D with phase := .rx }
        env := { s.env with sent := s.env.sent ++ [f] } }
  /-- A command frame that ends its operation. -/
  | finish (f : List Byte) : i.isFrame = true → s.D.phase = .tx → encode s.params i = .frame f →
      ExecNext i s (succeed .none .empty (txWrite f s))

section
variable {i : Instr} {s t : State}

/-- A host operation is accepted in IDLE or answered F_BUSY. -/
theorem ExecNext.of_accept {op : State → StepOutcome} (hi : i.isFrame = false) (h : accept s op = .next t)
    (hop : s.D.phase = .idle → op s = .next t → ExecNext i s t) : ExecNext i s t := by
  rcases accept_next h with ⟨hp, h⟩ | ⟨hp, rfl⟩
  · exact hop hp h
  · exact .busy hi hp

theorem ExecNext.raised (hi : i.isFrame = false) (hp : s.D.phase = .idle) {e : OpError}
    (he : ResultInv (.error e)) : ExecNext i s (raise e s) := .answer _ hi hp he

/-- The start of a dispatcher operation whose frame is the command frame `j`. -/
theorem ExecNext.of_start {a : Activity} {id : Byte} {c : Cmd} {payload : List Byte} (j : Instr)
    (hi : i.isFrame = false) (hp : s.D.phase = .idle) (ha : a ≠ .scan) (hc : Carries a j)
    (hw : idInDomain s.params id = true → payload.length ≤ 253 → wellFormed s.params j = true)
    (he : encode s.params j = .frame (buildFrame id (s.params.code c) payload))
    (h : startCommand a id c payload s = .next t) : ExecNext i s t := by
  rcases startCommand_cases a id c payload s with ⟨f, hf, e⟩ | ⟨k, -, e⟩ <;> rw [e] at h <;> cases h
  · obtain ⟨hd, hl, rfl⟩ := encodeCommand_ok_iff.mp hf
    refine .start a j _ hi hp ha hc (hw hd hl) he ?_
    simp only [buildFrame_length, Config.txCapacity]; omega
  · exact .raised hi hp (by simp [ResultInv])

theorem ExecNext.of_transmit {id : Byte} {c : Cmd} {payload : List Byte} {reply : Bool}
    (hi : i.isFrame = true) (he : encode s.params i = .frame (buildFrame id (s.params.code c) payload))
    (h : transmit id c payload reply s = .next t)
    (hc : reply = true → ∀ a, Carries a i → a ∈ [Activity.ping, .read, .write, .regWrite, .reset]) :
    ExecNext i s t := by
  obtain ⟨hp, ⟨hr, rfl⟩ | ⟨-, rfl⟩⟩ := transmit_next h
  · exact .await _ hi hp he (hc hr)
  · exact .finish _ hi hp he

theorem ExecNext.of_whenComplete {op : State → StepOutcome} (hi : i.isFrame = false)
    (h : whenComplete s op = .next t)
    (hop : s.D.phase = .idle → s.P.isComplete = true → op s = .next t → ExecNext i s t) : ExecNext i s t := by
  rcases whenComplete_next h with ⟨hp, hc, h⟩ | ⟨hp, -, rfl⟩ | ⟨hp, rfl⟩
  · exact hop hp hc h
  · exact .raised hi hp (by simp [ResultInv])
  · exact .busy hi hp

theorem ExecNext.of_illegalOp (hi : i.isFrame = false) (h : illegalOp s = .next t) : ExecNext i s t :=
  .of_accept hi h fun hp h => by cases h; exact .raised hi hp (by simp [ResultInv])

theorem syncShapeOk_of_check {ids : List Byte} {values : List (List Byte)} (h : syncCheck ids values = none) :
    syncShapeOk ids values = true := by
  unfold syncCheck at h
  split_ifs at h with h1 h2 h3
  simp [syncShapeOk] at *
  exact ⟨⟨h1, h2⟩, h3⟩

/-- Everything `exec` can do when it answers a next state. -/
theorem exec_cases (h : exec i s = .next t) : ExecNext i s t := by
  cases i with
  | cmdPing id =>
    simp only [exec, execCmdPing] at h
    exact .of_transmit rfl rfl h fun _ a ha => by cases ha; simp
  | cmdRead id offset count =>
    simp only [exec, execCmdRead] at h
    exact .of_transmit rfl rfl h fun _ a ha => by cases ha; simp
  | cmdWrite id offset data =>
    simp only [exec, execCmdWrite] at h
    exact .of_transmit rfl rfl h fun _ a ha => by cases ha; simp
  | cmdRegWrite id offset data =>
    simp only [exec, execCmdRegWrite] at h
    exact .of_transmit rfl rfl h fun _ a ha => by cases ha; simp
  | cmdAction =>
    simp only [exec, execCmdAction] at h
    exact .of_transmit rfl rfl h (by simp)
  | cmdReset id =>
    simp only [exec, execCmdReset] at h
    exact .of_transmit rfl rfl h fun _ a ha => by cases ha; simp
  | cmdSyncWrite offset ids values =>
    simp only [exec, execCmdSyncWrite] at h
    exact .of_transmit rfl rfl h (by simp)
  | parserClear =>
    simp only [exec, execParserClear] at h
    exact .of_accept rfl h fun hp h => by cases h; exact .clear rfl hp
  | processByte b =>
    simp only [exec, execProcessByte] at h
    refine .of_accept rfl h fun hp h => ?_
    split_ifs at h with hd
    · cases h; exact .raised rfl hp (by simp [ResultInv])
    · cases hs : pstep s.params s.P b with
      | ok P' => simp only [hs] at h; cases h; exact .byte b P' rfl hp (by simpa using hd) hs
      | error f => simp [hs] at h
  | getDeviceId =>
    simp only [exec, execGetDeviceId] at h
    exact .of_whenComplete rfl h fun hp _ h => by cases h; exact .answer _ rfl hp (by simp [ResultInv])
  | getErrorCode =>
    simp only [exec, execGetErrorCode] at h
    exact .of_whenComplete rfl h fun hp _ h => by cases h; exact .answer _ rfl hp (by simp [ResultInv])
  | getPayload =>
    simp only [exec, execGetPayload] at h
    refine .of_whenComplete rfl h fun hp _ h => ?_
    cases hl : payloadOf s.P with
    | ok bs => simp only [hl] at h; cases h; exact .answer _ rfl hp (by simp [ResultInv])
    | error f => simp [hl] at h
  | getStatusRaw =>
    simp only [exec, execGetStatusRaw] at h
    exact .of_whenComplete rfl h fun hp _ h => by cases h; exact .answer _ rfl hp (by simp [ResultInv])
  | checksum bytes =>
    simp only [exec, execChecksum] at h
    exact .of_accept rfl h fun hp h => by cases h; exact .answer _ rfl hp (by simp [ResultInv])
  | validate frame =>
    simp only [exec, execValidate] at h
    exact .of_accept rfl h fun hp h => by cases h; exact .answer _ rfl hp (by simp [ResultInv])
  | encodeOp id cmd payload =>
    simp only [exec, execEncode] at h
    refine .of_accept rfl h fun hp h => ?_
    cases hc : cmdOfSelector cmd with
    | none => simp only [hc] at h; cases h; exact .raised rfl hp (by simp [ResultInv])
    | some c =>
      simp only [hc] at h
      cases hf : encodeCommand s.params id c payload with
      | error k => simp only [hf] at h; cases h; exact .raised rfl hp (by simp [ResultInv])
      | ok f =>
        simp only [hf] at h
        cases h
        obtain ⟨-, hl, rfl⟩ := encodeCommand_ok_iff.mp hf
        exact .load _ rfl hp (by simp only [buildFrame_length, Config.txCapacity]; omega)
  | ping id =>
    simp only [exec, execPing] at h
    exact .of_accept rfl h fun hp h =>
      .of_start (.cmdPing id) rfl hp (by simp) (.ping _) (fun hd _ => hd) rfl h
  | read id offset count =>
    simp only [exec, execRead] at h
    exact .of_accept rfl h fun hp h =>
      .of_start (.cmdRead id offset count) rfl hp (by simp) (.read _ _ _) (fun hd _ => hd) rfl h
  | write id offset data =>
    simp only [exec, execWrite] at h
    exact .of_accept rfl h fun hp h => .of_start (.cmdWrite id offset data) rfl hp (by simp) (.write _ _ _)
      (fun hd hl => by simp [wellFormed, hd] at hl ⊢; omega) rfl h
  | regWrite id offset data =>
    simp only [exec, execRegWrite] at h
    exact .of_accept rfl h fun hp h => .of_start (.cmdRegWrite id offset data) rfl hp (by simp) (.regWrite _ _ _)
      (fun hd hl => by simp [wellFormed, hd] at hl ⊢; omega) rfl h
  | resetDevice id =>
    simp only [exec, execResetDevice] at h
    exact .of_accept rfl h fun hp h =>
      .of_start (.cmdReset id) rfl hp (by simp) (.reset _) (fun hd _ => hd) rfl h
  | action =>
    simp only [exec, execAction] at h
    exact .of_accept rfl h fun hp h =>
      .of_start .cmdAction rfl hp (by simp) .action (fun _ _ => rfl) rfl h
  | syncWrite ids offset values =>
    simp only [exec, execSyncWrite] at h
    refine .of_accept rfl h fun hp h => ?_
    cases hk : syncCheck ids values with
    | some k => simp only [hk] at h; cases h; exact .raised rfl hp (by simp [ResultInv])
    | none =>
      simp only [hk] at h
      have hs := syncShapeOk_of_check hk
      exact .of_start (.cmdSyncWrite offset ids values) rfl hp (by simp) (.syncWrite _ _ _)
        (fun _ hl => by rw [syncPayload_length hs] at hl; simp [wellFormed, hs, hl]) rfl h
  | scan startId count =>
    simp only [exec, execScan] at h
    exact .of_accept rfl h fun hp h => by cases h; exact .scan _ _ rfl hp
  | _ =>
    exact .of_illegalOp rfl h

/-- The next states of one iteration of the receive loop. -/
inductive ReceiveNext (s : State) : State → Prop
  | silent (s1 : State) : rxRead s = (none, s1) → ReceiveNext s (timedOut s1)
  | more (b : Byte) (s1 : State) (P' : Parser) : rxRead s = (some b, s1) → pstep s1.params s1.P b = .ok P' →
      P'.done = false → ReceiveNext s { s1 with P := P' }
  | failed (b : Byte) (s1 : State) (P' : Parser) : rxRead s = (some b, s1) → pstep s1.params s1.P b = .ok P' →
      P'.state = .failed ∨ (P'.state = .complete ∧ P'.code ≠ .none) →
      ReceiveNext s (busError P'.code { s1 with P := P' })
  | found (b : Byte) (s1 : State) (P' : Parser) : rxRead s = (some b, s1) → pstep s1.params s1.P b = .ok P' →
      P'.state = .complete → s1.D.activity = .scan → ReceiveNext s (scanResolved true { s1 with P := P' })
  | replied (b : Byte) (s1 : State) (P' : Parser) (d : Data) : rxRead s = (some b, s1) →
      pstep s1.params s1.P b = .ok P' → P'.state = .complete → s1.D.activity ≠ .scan →
      ReceiveNext s (succeed .none d { s1 with P := P' })

/-- Everything the receive loop can do when it answers a next state. -/
theorem receive_cases (h : receive s = .next t) : ReceiveNext s t := by
  unfold receive at h
  split at h
  · rename_i s1 hr; cases h; exact .silent s1 hr
  · rename_i b s1 hr
    split at h
    · rename_i P' hs
      unfold afterByte outcome at h
      dsimp only at h
      cases hst : P'.state with
      | complete =>
        simp only [hst] at h
        split_ifs at h with hc
        · unfold Sys2Proof.Machine.replied at h
          dsimp only at h
          split at h
          · cases h; exact .replied b s1 P' _ hr hs hst (by simp_all)
          · cases h; exact .found b s1 P' hr hs hst (by simp_all)
          · split at h <;> cases h; exact .replied b s1 P' _ hr hs hst (by simp_all)
          · cases h; exact .replied b s1 P' _ hr hs hst (by simp_all)
        · cases h; exact .failed b s1 P' hr hs (.inr ⟨hst, hc⟩)
      | failed => simp only [hst] at h; cases h; exact .failed b s1 P' hr hs (.inl hst)
      | _ => simp only [hst] at h; cases h; exact .more b s1 P' hr hs (by simp [Parser.done, hst])
    · cases h

/-- The next states of one turn of SCAN's loop. -/
inductive ScanNext (s : State) : State → Prop
  | ping (f : List Byte) : f = buildFrame s.D.scanId (s.params.code .ping) [] →
      ScanNext s { s with
        P := s.P.cleared
        D := { (launch .scan f s).D with phase := .rx }
        env := { s.env with sent := s.env.sent ++ [f] } }
  | refused (k : ValidationKind) : ScanNext s (endOp (.error (.validation k)) s.D.scanLog s)

/-- Everything a turn of SCAN's loop can do. -/
theorem scanTurn_cases (h : scanTurn s = .next t) : ScanNext s t := by
  cases he : encodeCommand s.params s.D.scanId .ping [] with
  | ok f =>
    rw [scanTurn_of_ok he] at h
    cases h
    exact .ping f (encodeCommand_ok_iff.mp he).2.2
  | error k =>
    rw [scanTurn_of_error he] at h
    cases h
    exact .refused k

/-- The next states of a step, `u` being the state after the fetch. -/
inductive StepNext (s : State) : State → State → Prop
  | host (u t : State) (r : Request) : exec (decodeRequest r) u = .next t → StepNext s u t
  | frame (u t : State) (f : List Byte) (i : Instr) : s.D.phase = .tx → txFrame s = .ok f →
      decodeFrame s.params f = .ok i → exec i u = .next t → StepNext s u t
  | reset (u : State) : StepNext s u (coreReset u)
  | receive (u t : State) : s.D.phase = .rx → Sys2Proof.Machine.receive u = .next t → StepNext s u t
  | scan (u t : State) : s.D.phase = .scan → scanTurn u = .next t → StepNext s u t
  | wait (u : State) : StepNext s u u

theorem coreTurn_run {c : Code} (h : coreTurn s = .ok (.run c)) :
    ∃ f, c = .frame f ∧ s.D.phase = .tx ∧ txFrame s = .ok f := by
  unfold coreTurn at h
  cases hp : s.D.phase <;> simp only [hp] at h <;> try (cases h)
  cases hf : txFrame s with
  | ok f => simp only [hf] at h; cases h; exact ⟨f, rfl, rfl, rfl⟩
  | error e => simp [hf] at h

theorem coreTurn_receive (h : coreTurn s = .ok .receive) : s.D.phase = .rx := by
  unfold coreTurn at h
  cases hp : s.D.phase <;> simp only [hp] at h <;> try (cases h)
  · cases hf : txFrame s <;> simp [hf] at h
  · rfl

theorem coreTurn_scan (h : coreTurn s = .ok .scan) : s.D.phase = .scan := by
  unfold coreTurn at h
  cases hp : s.D.phase <;> simp only [hp] at h <;> try (cases h)
  · cases hf : txFrame s <;> simp [hf] at h
  · rfl

/-- Everything a step can do when it answers a next state: the host's schedule moves on, then one of the cases. -/
theorem step_cases (h : step s = .next t) :
    ∃ es, StepNext s { s with env := { s.env with host := es } } t := by
  unfold step at h
  cases hf : fetch s with
  | error f => simp [hf] at h
  | ok ut =>
    obtain ⟨u, s'⟩ := ut
    obtain ⟨es, rfl⟩ := fetch_frame hf
    refine ⟨es, ?_⟩
    have ht := fetch_turn hf
    simp only [hf] at h
    cases u with
    | run c =>
      dsimp only at h
      rcases ht with ⟨act, ha⟩ | hc
      · cases act with
        | op r => cases ha; exact .host _ _ r h
        | rst => cases ha
      · obtain ⟨f, rfl, hp, hx⟩ := coreTurn_run hc
        simp only [decode] at h
        cases hd : decodeFrame s.params f with
        | ok i => simp only [hd] at h; exact .frame _ _ f i hp hx hd h
        | error e => simp [hd] at h
    | reset => cases h; exact .reset _
    | receive =>
      rcases ht with ⟨act, ha⟩ | hc
      · cases act <;> cases ha
      · exact .receive _ _ (coreTurn_receive hc) h
    | scan =>
      rcases ht with ⟨act, ha⟩ | hc
      · cases act <;> cases ha
      · exact .scan _ _ (coreTurn_scan hc) h
    | wait => cases h; exact .wait _

end

end Sys2Proof.Machine
end

