-- ==== Sys2Proof/Laws/Run.lean ====
section
/-! SUPPORT. Runs: composing them, and the receive loop over a list of bytes. -/

namespace Sys2Proof.Machine

theorem run_succ {s t : State} (h : step s = .next t) (n : Nat) : run (n + 1) s = run n t := by
  simp [run, h]

theorem run_add {m : Nat} : ∀ {s t : State}, run m s = .next t → ∀ n, run (m + n) s = run n t := by
  induction m with
  | zero => intro s t h n; cases h; simp
  | succ m ih =>
    intro s t h n
    rw [Nat.add_right_comm, run]
    rw [run] at h
    cases hs : step s with
    | next u => rw [hs] at h; exact ih h n
    | fault f => rw [hs] at h; cases h
    | refused r => rw [hs] at h; cases h

/-- A parser that takes a byte is not terminal. -/
theorem done_of_pstep {p : Params} {P P' : Parser} {b : Byte} (h : pstep p P b = .ok P') : P.done = false := by
  by_contra hd
  rw [pstep_terminal (by simpa using hd)] at h
  cases h

/-- A parser that takes bytes and is not terminal after them was not before. -/
theorem done_of_feed {p : Params} {bs : List Byte} {P P' : Parser} (h : feed p P bs = .ok P')
    (hd : P'.done = false) : P.done = false := by
  cases bs with
  | nil => cases h; exact hd
  | cons b bs =>
    rw [feed] at h
    cases hs : pstep p P b with
    | ok Q => exact done_of_pstep hs
    | error f => rw [hs] at h; cases h

/-- Feeding a list in two parts. -/
theorem feed_split {p : Params} {xs ys : List Byte} : ∀ {P P' : Parser}, feed p P (xs ++ ys) = .ok P' →
    ∃ Q, feed p P xs = .ok Q ∧ feed p Q ys = .ok P' := by
  induction xs with
  | nil => intro P P' h; exact ⟨P, rfl, h⟩
  | cons x xs ih =>
    intro P P' h
    simp only [List.cons_append, feed] at h ⊢
    cases hs : pstep p P x with
    | ok Q => rw [hs] at h; exact ih h
    | error f => rw [hs] at h; cases h

/-- A parser that takes a whole list takes every shorter beginning of it, and is not terminal there. -/
theorem feed_take {p : Params} {bs : List Byte} {P P' : Parser} (h : feed p P bs = .ok P') {n : Nat}
    (hn : n < bs.length) : ∃ Q, feed p P (bs.take n) = .ok Q ∧ Q.done = false := by
  rw [← List.take_append_drop n bs] at h
  obtain ⟨Q, h1, h2⟩ := feed_split h
  refine ⟨Q, h1, ?_⟩
  rw [List.drop_eq_getElem_cons hn, feed] at h2
  cases hs : pstep p Q bs[n] with
  | ok _ => exact done_of_pstep hs
  | error f => rw [hs] at h2; cases h2

/-- A byte that the transport answers is the parser's. -/
theorem step_receive_byte {s : State} {b : Byte} {rest : List (Option Byte)} {P' : Parser} (hp : s.D.phase = .rx)
    (hh : NothingDue s.env.host) (hr : s.env.rx = some b :: rest) (hs : pstep s.params s.P b = .ok P') :
    step s = afterByte { s with P := P', env := { s.env with rx := rest } } := by
  rw [step_receive (fetch_rx hp hh), receive, rxRead_cons hr]
  simp only [hs]

/-- Bytes that leave the parser short of a terminal state are all taken, and the loop goes on. -/
theorem run_receive {bs : List Byte} : ∀ {s : State} {rest : List (Option Byte)} {P' : Parser},
    s.D.phase = .rx → NothingDue s.env.host → s.env.rx = bs.map some ++ rest → feed s.params s.P bs = .ok P' →
      P'.done = false → run bs.length s = .next { s with P := P', env := { s.env with rx := rest } } := by
  induction bs with
  | nil =>
    intro s rest P' _ _ hr hf _
    cases hf
    rw [List.map_nil, List.nil_append] at hr
    subst hr
    rfl
  | cons b bs ih =>
    intro s rest P' hp hh hr hf hd
    rw [feed] at hf
    cases hs : pstep s.params s.P b with
    | error f => rw [hs] at hf; cases hf
    | ok Q =>
      rw [hs] at hf
      have hQ := done_of_feed hf hd
      have hstep := step_receive_byte hp hh hr hs
      have hout : outcome Q = .notDone := by
        cases hst : Q.state <;> simp_all [Parser.done, outcome]
      simp only [afterByte, hout] at hstep
      rw [List.length_cons, run_succ hstep]
      exact ih (s := { s with P := Q, env := { s.env with rx := bs.map some ++ rest } }) hp hh rfl hf hd

end Sys2Proof.Machine
end

