-- ==== Sys2Proof/Tests/Slice0.lean ====
section
/-! SUPPORT. Tests: expected values are taken from 95_test_vectors.md or written out by hand from 30_encoding.md. The
`witness_` theorems show that the hypotheses of the obligation they name can be met, clause by clause. -/

namespace Sys2Proof.Tests

open Sys2Proof.Machine Sys2Proof.Spec

/-! ### Helpers -/

/-- The reset state with a silent transport (95_test_vectors.md section 0: every further answer is `none`). -/
def idle : State := { State.reset with env := { Env.initial with rxTail := .repeating [] } }

/-- What a host issues next: PARSER_CLEAR, once the block is IDLE. -/
def later : List HostEvent := [⟨none, .op { op := 0x00 }⟩]

/-- A host that issues this operation and another after it, and these answers of the transport. -/
def issuing (r : Request) (rx : List (Option Byte)) : State :=
  { idle with env := { idle.env with host := ⟨none, .op r⟩ :: later, rx := rx } }

/-- The parser after these bytes, from reset. -/
def parsed (bs : List Byte) : Parser :=
  match feed Params.default Parser.reset bs with
  | .ok P => P
  | .error _ => Parser.reset

/-- IDLE with the parser after these bytes. -/
def idleAfter (bs : List Byte) : State := { idle with P := parsed bs }

/-- An exchange in progress: the parser after these bytes, the transport's next answers, a host that waits. -/
def receiving (a : Activity) (bs : List Byte) (rx : List (Option Byte)) : State :=
  { idle with
    P := parsed bs
    D := { idle.D with phase := .rx, activity := a }
    env := { idle.env with host := later, rx := rx } }

/-- This frame in TXBUF with phase TX. -/
def sending (a : Activity) (f : List Byte) : State := launch a f idle

/-- A SCAN between two pings. -/
def scanning (next last : Nat) : State :=
  { idle with
    D := { idle.D with
      phase := .scan, activity := .scan, scanId := BitVec.ofNat 8 next, scanEnd := BitVec.ofNat 9 last }
    env := { idle.env with host := later } }

/-- A SCAN that waits for the reply to a PING. -/
def pinging (next last : Nat) (rx : List (Option Byte)) : State :=
  { scanning next last with
    D := { (scanning next last).D with phase := .rx }
    env := { idle.env with host := later, rx := rx } }

/-- The result register of a next state. -/
def resultOf : StepOutcome → Option Result
  | .next s => some s.D.result
  | _ => none

/-- The frame in TXBUF of a next state in phase TX. -/
def frameOf : StepOutcome → Option (List Byte)
  | .next s => if s.D.phase = .tx then (txFrame s).toOption else none
  | _ => none

/-- The frames a next state has transmitted, and its phase. -/
def sentOf : StepOutcome → Option (List (List Byte) × Phase)
  | .next s => some (s.env.sent, s.D.phase)
  | _ => none

/-- The refusal that ended it. -/
def refusalOf : StepOutcome → Option Refusal
  | .refused r => some r
  | _ => none

/-- The parser of a next state. -/
def parserOf : StepOutcome → Option Parser
  | .next s => some s.P
  | _ => none

/-! ### WellFormed refuses an ill-formed term, check by check -/

theorem test_wellFormed_target :
    [Instr.cmdPing 0xFF, .cmdRead 0xFF 0 0, .cmdReset 0xFF, .cmdWrite 0xFF 0 [], .cmdRegWrite 0xFF 0 []].map
      (wellFormed Params.default) = [false, false, false, false, false] := by decide

theorem test_wellFormed_data :
    wellFormed Params.default (.cmdWrite 1 0 (List.replicate 253 0)) = false ∧
      wellFormed Params.default (.cmdRegWrite 1 0 (List.replicate 253 0)) = false := by decide +kernel

theorem test_wellFormed_syncWrite_shape :
    [Instr.cmdSyncWrite 0 [1, 2] [[]], .cmdSyncWrite 0 [] [], .cmdSyncWrite 0 [1, 2] [[1], []]].map
      (wellFormed Params.default) = [false, false, false] := by decide

theorem test_wellFormed_syncWrite_size :
    wellFormed Params.default (.cmdSyncWrite 0 (List.replicate 84 0) (List.replicate 84 [0, 0])) = false := by
  decide

theorem test_wellFormed_accepts :
    [Instr.cmdPing 0xFD, .cmdPing 0xFE, .cmdWrite 1 0 (List.replicate 252 0), .cmdSyncWrite 0 [1, 1] [[2], [3]],
      .cmdAction, .reserved06].map (wellFormed Params.default) = [true, true, true, true, true, true] := by decide +kernel

/-! ### Decode: command frames, byte for byte from R65 to R78 and 95_test_vectors.md section 2.8 -/

theorem test_decode_cmdPing :
    decode Params.default (.frame [0xFF, 0xFF, 0x01, 0x02, 0x01, 0xFB]) = .ok (.cmdPing 0x01) := by decide

theorem test_decode_cmdRead :
    decode Params.default (.frame [0xFF, 0xFF, 0x01, 0x04, 0x02, 0x2B, 0x01, 0xCC]) =
      .ok (.cmdRead 0x01 0x2B 0x01) := by decide

theorem test_decode_cmdWrite :
    decode Params.default (.frame [0xFF, 0xFF, 0x01, 0x05, 0x03, 0x18, 0x01, 0x00, 0xDD]) =
      .ok (.cmdWrite 0x01 0x18 [0x01, 0x00]) := by decide

theorem test_decode_cmdRegWrite :
    decode Params.default (.frame [0xFF, 0xFF, 0x01, 0x05, 0x04, 0x1E, 0xF4, 0x01, 0xE2]) =
      .ok (.cmdRegWrite 0x01 0x1E [0xF4, 0x01]) := by decide

theorem test_decode_cmdAction :
    decode Params.default (.frame [0xFF, 0xFF, 0xFE, 0x02, 0x05, 0xFA]) = .ok .cmdAction := by decide

theorem test_decode_cmdReset :
    decode Params.default (.frame [0xFF, 0xFF, 0x00, 0x02, 0x06, 0xF7]) = .ok (.cmdReset 0x00) := by decide

theorem test_decode_cmdSyncWrite :
    decode Params.default
        (.frame [0xFF, 0xFF, 0xFE, 0x0A, 0x83, 0x1E, 0x02, 0x01, 0x00, 0x02, 0x02, 0x00, 0x03, 0x4C]) =
      .ok (.cmdSyncWrite 0x1E [0x01, 0x02] [[0x00, 0x02], [0x00, 0x03]]) := by decide

/-- The encoder writes the same bytes. -/
theorem test_encode_cmdSyncWrite :
    encode Params.default (.cmdSyncWrite 0x1E [0x01, 0x02] [[0x00, 0x02], [0x00, 0x03]]) =
      .frame [0xFF, 0xFF, 0xFE, 0x0A, 0x83, 0x1E, 0x02, 0x01, 0x00, 0x02, 0x02, 0x00, 0x03, 0x4C] := by decide

/-! ### Decode: the 32 selectors of R84 with the operand fields of R85 -/

theorem test_decode_parser_ops :
    [decodeRequest { op := 0b00000 }, decodeRequest { op := 0b00001, b := 0xA5 }, decodeRequest { op := 0b00010 },
      decodeRequest { op := 0b00011 }, decodeRequest { op := 0b00100 }, decodeRequest { op := 0b00101 }] =
    [.parserClear, .processByte 0xA5, .getDeviceId, .getErrorCode, .getPayload, .getStatusRaw] := by decide

theorem test_decode_codec_ops :
    [decodeRequest { op := 0b01000, bytes := [1, 2] }, decodeRequest { op := 0b01001, bytes := [3] },
      decodeRequest { op := 0b01010, id := 4, cmd := 0b101, bytes := [6] }] =
    [.checksum [1, 2], .validate [3], .encodeOp 4 5 [6]] := by decide

theorem test_decode_dispatcher_ops :
    [decodeRequest { op := 0b10000, id := 1 }, decodeRequest { op := 0b10001, id := 1, offset := 2, count := 3 },
      decodeRequest { op := 0b10010, id := 1, offset := 2, bytes := [4] },
      decodeRequest { op := 0b10011, id := 1, offset := 2, bytes := [5] }, decodeRequest { op := 0b10100, id := 6 },
      decodeRequest { op := 0b10101 }, decodeRequest { op := 0b10110, offset := 2, bytes := [7], values := [[8]] },
      decodeRequest { op := 0b10111, id := 9, total := 300 }] =
    [.ping 1, .read 1 2 3, .write 1 2 [4], .regWrite 1 2 [5], .resetDevice 6, .action, .syncWrite [7] 2 [[8]],
      .scan 9 300] := by decide

theorem test_decode_reserved_ops :
    [decodeRequest { op := 0b00110 }, decodeRequest { op := 0b00111 }, decodeRequest { op := 0b01011 },
      decodeRequest { op := 0b01100 }, decodeRequest { op := 0b01101 }, decodeRequest { op := 0b01110 },
      decodeRequest { op := 0b01111 }, decodeRequest { op := 0b11000 }, decodeRequest { op := 0b11001 },
      decodeRequest { op := 0b11010 }, decodeRequest { op := 0b11011 }, decodeRequest { op := 0b11100 },
      decodeRequest { op := 0b11101 }, decodeRequest { op := 0b11110 }, decodeRequest { op := 0b11111 }] =
    [.reserved06, .reserved07, .reserved0b, .reserved0c, .reserved0d, .reserved0e, .reserved0f, .reserved18,
      .reserved19, .reserved1a, .reserved1b, .reserved1c, .reserved1d, .reserved1e, .reserved1f] := by decide

/-! ### Decode rejects by name -/

theorem test_decode_rejects :
    [decodeFrame Params.default [0xFF, 0xFF, 0x01, 0x02],
      decodeFrame Params.default [0xFF, 0xFE, 0x01, 0x02, 0x01, 0xFB],
      decodeFrame Params.default [0xFF, 0xFF, 0x01, 0x03, 0x01, 0xFA],
      decodeFrame Params.default [0xFF, 0xFF, 0x01, 0x02, 0x01, 0xFC],
      decodeFrame Params.default [0xFF, 0xFF, 0xFF, 0x02, 0x01, 0xFD],
      decodeFrame Params.default [0xFF, 0xFF, 0x01, 0x02, 0x07, 0xF5],
      decodeFrame Params.default [0xFF, 0xFF, 0x01, 0x03, 0x01, 0x00, 0xFA],
      decodeFrame Params.default [0xFF, 0xFF, 0x01, 0x02, 0x05, 0xF7]] =
    [.error .tooShort, .error .badPreamble, .error .badLength, .error .badChecksum, .error .badTarget,
      .error .unknownCommand, .error .badPayload, .error .badPayload] := by decide

theorem test_decodeTableWord :
    decodeTableWord 8 0x83 = some (.cmdSyncWrite 0 [0] [[]]) ∧ decodeTableWord 8 0x17 = some (.scan 0 0) ∧
      decodeTableWord 8 0x40 = none := by decide

/-! ### Codec: 95_test_vectors.md sections 2.1 to 2.3 -/

theorem test_checksum_source_example :
    resultOf (exec (.checksum [0x01, 0x05, 0x03, 0x18, 0x01, 0x00]) idle) = some (.ok .none (.byte 0xDD)) := by decide

theorem test_checksum_wraps :
    resultOf (exec (.checksum [0xFF, 0xFF, 0xFF]) idle) = some (.ok .none (.byte 0x02)) := by decide

theorem test_validate_true :
    resultOf (exec (.validate [0xFF, 0xFF, 0x01, 0x03, 0x00, 0x20, 0xDB]) idle) = some (.ok .none (.bool true)) := by
  decide

theorem test_validate_length :
    resultOf (exec (.validate [0xFF, 0xFF, 0x01, 0x03, 0x00, 0xFC]) idle) = some (.ok .none (.bool false)) := by
  decide

theorem test_encode_source_example :
    resultOf (exec (.encodeOp 0x01 2 [0x18, 0x01, 0x00]) idle) =
      some (.ok .none (.bytes [0xFF, 0xFF, 0x01, 0x05, 0x03, 0x18, 0x01, 0x00, 0xDD])) := by decide

theorem test_encode_first_error :
    resultOf (exec (.encodeOp 0xFF 0 (List.replicate 254 0)) idle) = some (.error (.validation .id)) ∧
      resultOf (exec (.encodeOp 0xFF 7 (List.replicate 254 0)) idle) = some (.error (.fault .illegalOp)) := by decide

/-! ### Parser: 95_test_vectors.md sections 2.4 to 2.7 -/

theorem test_processByte_completes :
    resultOf (exec (.processByte 0xDB) (idleAfter [0xFF, 0xFF, 0x01, 0x03, 0x00, 0x20])) =
      some (.ok .none (.byte 1)) := by decide

theorem test_processByte_third_marker_is_the_id :
    resultOf (exec (.processByte 0x01) (idleAfter [0xFF, 0xFF, 0xFF])) = some (.ok .malformed (.byte 2)) := by decide

theorem test_parserClear :
    parserOf (exec .parserClear (idleAfter [0xFF, 0xFF, 0x01, 0x02, 0x00, 0xFD])) = some Parser.reset := by decide

theorem test_getDeviceId :
    resultOf (exec .getDeviceId (idleAfter [0xFF, 0xFF, 0x01, 0x02, 0x00, 0xFC])) = some (.ok .none (.byte 0x01)) := by
  decide

theorem test_getDeviceId_failed :
    resultOf (exec .getDeviceId (idleAfter [0xFF, 0xFF, 0x01, 0x02, 0x00, 0xFD])) =
      some (.error (.fault .notComplete)) := by decide

theorem test_getErrorCode :
    resultOf (exec .getErrorCode (idleAfter [0xFF, 0xFF, 0x01, 0x02, 0x24, 0xD8])) =
      some (.ok .overheating .empty) := by decide

theorem test_getPayload :
    resultOf (exec .getPayload (idleAfter [0xFF, 0xFF, 0x01, 0x04, 0x00, 0xFF, 0xFF, 0xFC])) =
      some (.ok .none (.bytes [0xFF, 0xFF])) := by decide

theorem test_getStatusRaw :
    resultOf (exec .getStatusRaw (idleAfter [0xFF, 0xFF, 0x01, 0x02, 0x24, 0xD8])) =
      some (.ok .none (.byte 0x24)) := by decide

/-- 95_test_vectors.md section 2.6. -/
theorem test_resolve :
    [0x00, 0x01, 0x02, 0x04, 0x08, 0x10, 0x20, 0x40, 0x80, 0x24, 0x22, 0x09, 0x12, 0x41, 0x81, 0x82, 0xFF].map
      (resolve Params.default) =
    [.none, .inputVoltage, .angleLimit, .overheating, .range, .checksum, .overload, .instruction, .reserved,
      .overheating, .overload, .range, .checksum, .instruction, .inputVoltage, .angleLimit, .overheating] := by decide

/-! ### Dispatcher: the frames of 95_test_vectors.md sections 2.8 to 2.10 -/

theorem test_ping : frameOf (exec (.ping 0x01) idle) = some [0xFF, 0xFF, 0x01, 0x02, 0x01, 0xFB] := by decide

theorem test_ping_refuses : resultOf (exec (.ping 0xFF) idle) = some (.error (.validation .id)) := by decide

theorem test_read :
    frameOf (exec (.read 0x01 0x24 0x02) idle) = some [0xFF, 0xFF, 0x01, 0x04, 0x02, 0x24, 0x02, 0xD2] := by decide

theorem test_write :
    frameOf (exec (.write 0x02 0x20 [0x55, 0x55, 0x55, 0x55, 0x55]) idle) =
      some [0xFF, 0xFF, 0x02, 0x08, 0x03, 0x20, 0x55, 0x55, 0x55, 0x55, 0x55, 0x29] := by decide

theorem test_write_refuses :
    resultOf (exec (.write 0x01 0x00 (List.replicate 253 0)) idle) = some (.error (.validation .tooLong)) := by decide +kernel

theorem test_regWrite :
    frameOf (exec (.regWrite 0xFE 0x1E [0x00, 0x02]) idle) =
      some [0xFF, 0xFF, 0xFE, 0x05, 0x04, 0x1E, 0x00, 0x02, 0xD8] := by decide

theorem test_resetDevice :
    frameOf (exec (.resetDevice 0x00) idle) = some [0xFF, 0xFF, 0x00, 0x02, 0x06, 0xF7] := by decide

theorem test_action : frameOf (exec .action idle) = some [0xFF, 0xFF, 0xFE, 0x02, 0x05, 0xFA] := by decide

theorem test_syncWrite :
    frameOf (exec (.syncWrite [0x01, 0x02, 0x03] 0x1E [[], [], []]) idle) =
      some [0xFF, 0xFF, 0xFE, 0x07, 0x83, 0x1E, 0x00, 0x01, 0x02, 0x03, 0x53] := by decide

theorem test_syncWrite_refuses :
    [exec (.syncWrite [] 0x1E [[0x01]]) idle, exec (.syncWrite [] 0x1E []) idle,
      exec (.syncWrite [0x01, 0x02] 0x1E [[0x00, 0x01], [0x02]]) idle].map resultOf =
    [some (.error (.validation .dim)), some (.error (.validation .empty)), some (.error (.validation .width))] := by
  decide

/-- `scan FC, 16` is cut below the broadcast id (95_test_vectors.md section 2.10). -/
theorem test_scan :
    (match exec (.scan 0xFC 16) idle with
      | .next s => some (s.D.scanId, s.D.scanEnd, s.D.phase)
      | _ => none) = some (0xFC, 0xFE, .scan) := by decide

/-- An empty range ends at once (95_test_vectors.md section 2.10). -/
theorem test_scan_empty :
    (match exec (.scan 0xFE 16) idle with
      | .next s => some (s.D.result, s.D.phase, s.env.replies.map (·.scanLog))
      | _ => none) = some (.ok .none (.bool false), .idle, [[]]) := by decide

/-! ### Command frames in phase TX -/

theorem test_cmdPing_broadcast :
    sentOf (exec (.cmdPing 0xFE) (sending .ping [])) = some ([[0xFF, 0xFF, 0xFE, 0x02, 0x01, 0xFE]], .rx) := by decide

theorem test_cmdRead :
    sentOf (exec (.cmdRead 0x05 0x00 0x00) (sending .read [])) =
      some ([[0xFF, 0xFF, 0x05, 0x04, 0x02, 0x00, 0x00, 0xF4]], .rx) := by decide

theorem test_cmdWrite :
    sentOf (exec (.cmdWrite 0x01 0x19 []) (sending .write [])) =
      some ([[0xFF, 0xFF, 0x01, 0x03, 0x03, 0x19, 0xDF]], .rx) := by decide

theorem test_cmdWrite_broadcast :
    sentOf (exec (.cmdWrite 0xFE 0x19 [0x01]) (sending .write [])) =
      some ([[0xFF, 0xFF, 0xFE, 0x04, 0x03, 0x19, 0x01, 0xE0]], .idle) := by decide

theorem test_cmdRegWrite :
    sentOf (exec (.cmdRegWrite 0x01 0x1E [0xF4, 0x01]) (sending .regWrite [])) =
      some ([[0xFF, 0xFF, 0x01, 0x05, 0x04, 0x1E, 0xF4, 0x01, 0xE2]], .rx) := by decide

theorem test_cmdReset_broadcast :
    sentOf (exec (.cmdReset 0xFE) (sending .reset [])) = some ([[0xFF, 0xFF, 0xFE, 0x02, 0x06, 0xF9]], .idle) := by
  decide

theorem test_cmdAction :
    sentOf (exec .cmdAction (sending .action [])) = some ([[0xFF, 0xFF, 0xFE, 0x02, 0x05, 0xFA]], .idle) := by decide

theorem test_cmdSyncWrite :
    sentOf (exec (.cmdSyncWrite 0x1E [0xFF] [[0x01]]) (sending .syncWrite [])) =
      some ([[0xFF, 0xFF, 0xFE, 0x06, 0x83, 0x1E, 0x01, 0xFF, 0x01, 0x59]], .idle) := by decide

theorem test_frame_outside_tx : refusalOf (exec .cmdAction idle) = some .frameOutsideTx := by decide

/-! ### Reserved selectors: 95_test_vectors.md section 2.11 -/

theorem test_reserved :
    reservedInstrs.map (fun i => resultOf (exec i idle)) =
      List.replicate 15 (some (.error (.fault .illegalOp))) := by decide

theorem test_busy :
    resultOf (exec .reserved06 (receiving .ping [] [])) = some (.ok .none .empty) ∧
      (match exec .reserved06 (receiving .ping [] []) with
        | .next s => s.env.replies.map (·.result)
        | _ => []) = [.error (.fault .busy)] := by decide

/-! ### Single steps of the exchange and of SCAN -/

theorem test_step_overload :
    resultOf (step (receiving .ping [0xFF, 0xFF, 0x01, 0x02, 0x20] [some 0xDC])) =
      some (.error (.bus .overload)) := by decide

theorem test_step_read :
    resultOf (step (receiving .read [0xFF, 0xFF, 0x02, 0x03, 0x00, 0x20] [some 0xDA])) =
      some (.ok .none (.bytes [0x20])) := by decide

/-- One transport call a step (R6): the PING of a SCAN is sent, and the last answer ends the SCAN. -/
theorem test_step_scan_pings :
    sentOf (step (scanning 0x01 0x02)) = some ([[0xFF, 0xFF, 0x01, 0x02, 0x01, 0xFB]], .rx) := by decide

theorem test_step_scan_ends :
    resultOf (step (pinging 0xFD 0xFE [none])) = some (.ok .none (.bool false)) ∧
      sentOf (step (pinging 0xFD 0xFE [none])) = some ([], .idle) ∧
      sentOf (step (pinging 0xFC 0xFE [none])) = some ([], .scan) := by decide

/-- `withFetchWord` puts a request and a frame where the next step runs them. -/
theorem test_withFetchWord :
    frameOf (step (State.reset.withFetchWord 8 0x15)) = some [0xFF, 0xFF, 0xFE, 0x02, 0x05, 0xFA] ∧
      sentOf (step (State.reset.withFetchWord 8 0x83)) =
        some ([[0xFF, 0xFF, 0xFE, 0x05, 0x83, 0x00, 0x00, 0x00, 0x79]], .idle) := by decide

/-! ### Witnesses: the hypotheses of the obligations can be met -/

theorem witness_DecodeEncodeRoundTrip :
    Params.default.Valid ∧ wellFormed Params.default (.cmdWrite 0xFD 0 (List.replicate 252 0)) = true ∧
      wellFormed Params.default (.cmdSyncWrite 0 (List.replicate 251 1) (List.replicate 251 [])) = true := by
  decide +kernel

theorem witness_DecodedFrameReencodes :
    decodeFrame Params.default [0xFF, 0xFF, 0xFE, 0x02, 0x05, 0xFA] = .ok .cmdAction := by decide

theorem witness_StepRunsTheDecodedInstruction :
    fetch (issuing { op := 0x15 } []) =
        .ok (.run (.request { op := 0x15 }), { idle with env := { idle.env with host := later } }) ∧
      decode idle.params (.request { op := 0x15 }) = .ok .action := by decide

theorem witness_StepTakesItsInstruction_request :
    (issuing { op := 0x15 } []).D.phase = .idle ∧
      (issuing { op := 0x15 } []).env.host = ⟨none, .op { op := 0x15 }⟩ :: later := by decide

/-- An operation due at once in an exchange, and one due later, beside the state without a host, which steps. -/
theorem witness_StepTakesItsInstruction_due :
    (let s := { receiving .ping [] [none] with env := { idle.env with host := [⟨some 0, .op { op := 0x15 }⟩] } }
     s.env.host = ⟨some 0, .op { op := 0x15 }⟩ :: []) ∧
    (let s := { receiving .ping [] [] with env := { idle.env with host := [⟨some 1, .rst⟩], rx := [none] } }
     s.env.host = ⟨some (0 + 1), .rst⟩ :: [] ∧
       (step { s with env := { s.env with host := [] } })matches .next _) := by decide

theorem witness_StepTakesItsInstruction_frame :
    let s := { sending .action [0xFF, 0xFF, 0xFE, 0x02, 0x05, 0xFA] with env := { idle.env with host := later } }
    s.D.phase = .tx ∧ NothingDue s.env.host ∧
      Buffer.load Config.txCapacity s.D.txbuf s.D.txlen.toNat = .ok [0xFF, 0xFF, 0xFE, 0x02, 0x05, 0xFA] ∧
      decodeFrame s.params [0xFF, 0xFF, 0xFE, 0x02, 0x05, 0xFA] = .ok .cmdAction := by decide

theorem witness_StepTakesItsInstruction_wait : idle.D.phase = .idle ∧ idle.env.host = [] := by decide

theorem witness_StoredBytesReadBack :
    1 < ([7, 0] : List Byte).length ∧ (2 < 3 ∨ 3 + ([7, 0] : List Byte).length ≤ 2) ∧
      (5 < 3 ∨ 3 + ([7, 0] : List Byte).length ≤ 5) := by decide

theorem witness_ResetInputResetsTheBlock :
    (let s := { receiving .read [0xFF, 0xFF, 0x01] [some 0] with
       env := { idle.env with host := ⟨some 0, .rst⟩ :: later } }
     ResetAsserted s later) ∧
    ResetAsserted { idle with env := { idle.env with host := ⟨none, .rst⟩ :: later } } later :=
  ⟨.inl rfl, .inr ⟨rfl, rfl⟩⟩

/-- IDLE is all that ChecksumCompletes, ValidateCompletes, ParserClearCompletes and ActionStarts ask. -/
theorem witness_ChecksumCompletes : idle.D.phase = .idle := by decide
theorem witness_ValidateCompletes : idle.D.phase = .idle := by decide
theorem witness_ParserClearCompletes : (idleAfter [0xFF, 0xFF, 0x01]).D.phase = .idle := by decide
theorem witness_ActionStarts : idle.D.phase = .idle := by decide
theorem witness_ScanStarts :
    idle.D.phase = .idle ∧ (0xFD : Byte).toNat < min ((0xFD : Byte).toNat + 16) (min idle.params.broadcastId.toNat 254) ∧
      min ((0xFE : Byte).toNat + 16) (min idle.params.broadcastId.toNat 254) ≤ (0xFE : Byte).toNat ∧
      min ((0x00 : Byte).toNat + 0) (min idle.params.broadcastId.toNat 254) ≤ (0x00 : Byte).toNat := by decide

theorem witness_WholeFrameSum : (List.replicate 253 (0xFF : Byte)).length ≤ 253 := by decide +kernel

theorem witness_EncodeCompletes :
    idle.D.phase = .idle ∧ Target idle 0xFE ∧ Target idle 0xFD ∧ (List.replicate 253 (0 : Byte)).length ≤ 253 ∧
      ((6 : BitVec 3), idle.params.cmdSyncWrite) ∈ [((0 : BitVec 3), idle.params.cmdPing), (1, idle.params.cmdRead),
        (2, 0x03), (3, idle.params.cmdRegWrite), (4, idle.params.cmdAction), (5, idle.params.cmdReset),
        (6, idle.params.cmdSyncWrite)] := by decide +kernel

theorem witness_EncodeReportsTheFirstError :
    idle.D.phase = .idle ∧ (7 : BitVec 3) = 7 ∧ (6 : BitVec 3) ≠ 7 ∧ ¬ Target idle 0xFF ∧ Target idle 0xFE ∧
      253 < (List.replicate 254 (0 : Byte)).length := by decide +kernel

theorem witness_EncodedFramesAreWellShaped :
    encodeCommand Params.default 0xFE .syncWrite [] = .ok [0xFF, 0xFF, 0xFE, 0x02, 0x83, 0x7C] := by decide

/-- A parser in each of the six states. -/
theorem witness_ParserNextState :
    [parsed [], parsed [0xFF], parsed [0xFF, 0xFF], parsed [0xFF, 0xFF, 1], parsed [0xFF, 0xFF, 1, 2],
      parsed [0xFF, 0xFF, 1, 2, 0]].map (·.state) = [.seek1, .seek2, .id, .len, .status, .check] := by decide

theorem witness_PreambleSearch :
    idle.D.phase = .idle ∧ idle.P.state = .seek1 ∧ (idleAfter [0xFF]).D.phase = .idle ∧
      (idleAfter [0xFF]).P.state = .seek2 ∧ (idleAfter [0xFF]).params.seek2Mismatch = .toSeek1 ∧
      (let s := { idleAfter [0xFF] with params := { Params.default with seek2Mismatch := .staySeek2 } }
       s.D.phase = .idle ∧ s.P.state = .seek2 ∧ s.params.seek2Mismatch = .staySeek2) ∧ (0xFE : Byte) ≠ 0xFF := by
  decide

theorem witness_HeaderBytes :
    (idleAfter [0xFF, 0xFF]).D.phase = .idle ∧ (idleAfter [0xFF, 0xFF]).P.state = .id ∧
      (idleAfter [0xFF, 0xFF, 1]).P.state = .len ∧ 2 ≤ (2 : Byte).toNat ∧ (1 : Byte).toNat < 2 ∧
      (idleAfter [0xFF, 0xFF, 1]).params.shortLengthPolicy = .failMalformed ∧
      (let s := { idleAfter [0xFF, 0xFF, 1] with
         params := { Params.default with shortLengthPolicy := .zeroPayload } }
       s.D.phase = .idle ∧ s.P.state = .len ∧ s.params.shortLengthPolicy = .zeroPayload) ∧
      (idleAfter [0xFF, 0xFF, 1, 2]).P.state = .status := by decide

theorem witness_PayloadByte :
    let s := { idle with P := { Parser.reset with state := .payload, length := 255, idx := 252 } }
    s.D.phase = .idle ∧ s.P.state = .payload ∧ s.P.idx.toNat < s.P.length.toNat - 2 := by decide

theorem witness_CheckByte :
    (idleAfter [0xFF, 0xFF, 1, 2, 0]).D.phase = .idle ∧ (idleAfter [0xFF, 0xFF, 1, 2, 0]).P.state = .check ∧
      (idleAfter [0xFF, 0xFF, 1, 2, 0]).P.sum + 0xFC = 0xFF ∧
      (idleAfter [0xFF, 0xFF, 1, 2, 0]).P.sum + 0xFD ≠ 0xFF := by decide

theorem witness_TerminalParserTakesNoByte :
    (idleAfter [0xFF, 0xFF, 1, 2, 0, 0xFC]).D.phase = .idle ∧
      (idleAfter [0xFF, 0xFF, 1, 2, 0, 0xFC]).P.state = .complete ∧
      (idleAfter [0xFF, 0xFF, 1, 2, 0, 0xFD]).D.phase = .idle ∧
      (idleAfter [0xFF, 0xFF, 1, 2, 0, 0xFD]).P.state = .failed := by decide

/-- The largest payload, 253 bytes, and the empty one. -/
theorem witness_AccessorsInComplete :
    (let bs := List.replicate 253 (7 : Byte)
     let s := { idle with
       P := { Parser.reset with state := .complete, idx := 253, pbuf := (List.range 253).map fun i => (i, 7) } }
     s.D.phase = .idle ∧ s.P.state = .complete ∧ s.P.idx.toNat ≤ 253 ∧ bs.length = s.P.idx.toNat ∧
       ∀ n (h : n < bs.length), bs[n] = Buffer.get s.P.pbuf n) ∧
    (idleAfter [0xFF, 0xFF, 1, 2, 0, 0xFC]).P.state = .complete ∧
      (idleAfter [0xFF, 0xFF, 1, 2, 0, 0xFC]).P.idx.toNat = 0 := by decide +kernel

theorem witness_AccessorsOutsideComplete :
    (idleAfter [0xFF, 0xFF, 1, 2, 0, 0xFD]).D.phase = .idle ∧
      (idleAfter [0xFF, 0xFF, 1, 2, 0, 0xFD]).P.state ≠ .complete := by decide

theorem witness_ResolvePicksTheFirstSetBit :
    Params.default.Valid ∧ (0x00 : Byte) = 0 ∧ (0xFF : Byte) ≠ 0 ∧ (0x80 : Byte) ≠ 0 := by decide

theorem witness_RunningSum :
    (parsed [0xFF, 0xFF]).state = .id ∧
      (feed Params.default (parsed [0xFF, 0xFF]) [1, 2, 0, 0xFC]).toOption.map (·.sum) = some 0xFF := by decide

theorem witness_NoAbortInsideAFrame :
    let P := { Parser.reset with state := .payload, length := 255, idx := 252 }
    P.state ∈ [ParserState.id, .len, .status, .payload] ∧ P.idx.toNat < npay P ∧
      (parsed [0xFF, 0xFF, 1]).state ∈ [ParserState.id, .len, .status, .payload] := by decide

/-- Lengths 2, 255 and 1, the last under both policies; then streams that never end the search. -/
theorem witness_FrameLengthIsBounded :
    (parsed [0xFF, 0xFF]).state = .id ∧
      ([0, 0] : List Byte).length + 2 = (2 : Byte).toNat + 2 ∧
      (List.replicate 255 (0 : Byte)).length + 2 = (255 : Byte).toNat + 2 ∧
      ([] : List Byte).length + 2 = 2 ∧ ([0, 0] : List Byte).length + 2 = 4 ∧ ¬ 2 ≤ (1 : Byte).toNat ∧
      Parser.reset.state = .seek1 ∧ (¬ [0xFF, 0xFF] <:+: [(0xFF : Byte), 0x12, 0xFF]) ∧
      Params.default.seek2Mismatch = .toSeek1 ∧ [(0x00 : Byte), 0xFF, 0x12].count 0xFF ≤ 1 ∧
      (let p := { Params.default with seek2Mismatch := .staySeek2, shortLengthPolicy := .zeroPayload }
       p.seek2Mismatch = .staySeek2 ∧ p.shortLengthPolicy = .zeroPayload) := by decide +kernel

theorem witness_EncodeParseRoundTrip :
    encodeCommand Params.default 0x01 .write [0x18, 0x01, 0x00] =
        .ok [0xFF, 0xFF, 0x01, 0x05, 0x03, 0x18, 0x01, 0x00, 0xDD] ∧
      (encodeCommand Params.default 0xFE .write (List.replicate 253 0xFF)).toOption.isSome = true ∧
      Parser.reset.state = .seek1 := by decide +kernel

theorem witness_BusyBlockWritesNoRegister :
    Instr.reserved06.isFrame = false ∧ (receiving .ping [] []).D.phase ≠ .idle := by decide

theorem witness_ReservedSelectorsRaiseIllegalOp :
    idle.D.phase = .idle ∧ Instr.reserved06 ∈ reservedInstrs ∧ Instr.reserved1f ∈ reservedInstrs := by decide

theorem witness_TargetedOperationsStart :
    idle.D.phase = .idle ∧ Target idle 0xFD ∧ Target idle 0xFE ∧ (List.replicate 252 (0 : Byte)).length ≤ 252 := by
  decide +kernel

theorem witness_TargetedOperationsValidate :
    idle.D.phase = .idle ∧ ¬ Target idle 0xFF ∧ Target idle 0xFD ∧
      252 < (List.replicate 253 (0 : Byte)).length := by decide +kernel

/-- The largest frame: 251 devices of width 0. -/
theorem witness_SyncWriteStarts :
    let ids := List.replicate 251 (0xFF : Byte)
    let values := List.replicate 251 ([] : List Byte)
    idle.D.phase = .idle ∧ ids.length = values.length ∧ ids ≠ [] ∧ (∀ v ∈ values, v.length = 0) ∧
      2 + ids.length * (1 + 0) ≤ 253 := by decide +kernel

theorem witness_SyncWriteChecksInOrder :
    idle.D.phase = .idle ∧ ([1, 2] : List Byte).length ≠ ([[0]] : List (List Byte)).length ∧
      ([] : List Byte).length = ([] : List (List Byte)).length ∧
      (let values : List (List Byte) := [[0, 1], [2]]
       ([1, 2] : List Byte).length = values.length ∧ ∃ v ∈ values, ∃ w ∈ values, v.length ≠ w.length) ∧
      (let ids := List.replicate 84 (0 : Byte)
       let values := List.replicate 84 ([0, 0] : List Byte)
       ids.length = values.length ∧ ids ≠ [] ∧ (∀ v ∈ values, v.length = 2) ∧ 253 < 2 + ids.length * (1 + 2)) := by
  decide +kernel

theorem witness_AddressedFramesAwaitAReply :
    (sending .write []).D.phase = .tx ∧ (0x00 : Byte) ≠ (sending .write []).params.broadcastId := by decide

theorem witness_BroadcastFramesEndTheOperation : (sending .action []).D.phase = .tx := by decide

theorem witness_FramesOutsideTxAreRefused :
    Instr.cmdAction.isFrame = true ∧ idle.D.phase ≠ .tx := by decide

theorem witness_OnlyTxTransmitsAndTransmitsTxbuf :
    (∃ t, step (sending .action [0xFF, 0xFF, 0xFE, 0x02, 0x05, 0xFA]) = .next t) ∧
      ∃ t, step (scanning 0x01 0x02) = .next t := ⟨⟨_, rfl⟩, _, rfl⟩

theorem witness_OnlyRxReads :
    (∃ t, step (issuing { op := 0x15 } [some 1]) = .next t) ∧ (issuing { op := 0x15 } [some 1]).D.phase ≠ .rx :=
  ⟨⟨_, rfl⟩, by decide⟩

theorem witness_SilenceInTheReceiveLoop :
    ∀ a ∈ [Activity.ping, .scan, .read, .write, .regWrite, .reset],
      (receiving a [0xFF] [none]).D.phase = .rx ∧ NothingDue (receiving a [0xFF] [none]).env.host ∧
        (receiving a [0xFF] [none]).env.rx = [none] ∧ (receiving a [0xFF] [none]).D.activity = a := by decide

theorem witness_ReceiveLoopGoesOn :
    let s := receiving .ping [0xFF, 0xFF, 0x01, 0x02] [some 0x00]
    s.D.phase = .rx ∧ NothingDue s.env.host ∧ s.env.rx = [some 0x00] ∧
      pstep s.params s.P 0x00 = .ok (parsed [0xFF, 0xFF, 0x01, 0x02, 0x00]) ∧
      (parsed [0xFF, 0xFF, 0x01, 0x02, 0x00]).done = false := by decide

theorem witness_FailedExchangeRaisesItsCode :
    (let s := receiving .scan [0xFF, 0xFF, 0x01] [some 0x01]
     s.D.phase = .rx ∧ NothingDue s.env.host ∧ s.env.rx = [some 0x01] ∧
       pstep s.params s.P 0x01 = .ok (parsed [0xFF, 0xFF, 0x01, 0x01]) ∧
       (parsed [0xFF, 0xFF, 0x01, 0x01]).state = .failed) ∧
    (let s := receiving .write [0xFF, 0xFF, 0x01, 0x02, 0x24] [some 0xD8]
     s.D.phase = .rx ∧ NothingDue s.env.host ∧ s.env.rx = [some 0xD8] ∧
       pstep s.params s.P 0xD8 = .ok (parsed [0xFF, 0xFF, 0x01, 0x02, 0x24, 0xD8]) ∧
       (parsed [0xFF, 0xFF, 0x01, 0x02, 0x24, 0xD8]).state = .complete ∧
       (parsed [0xFF, 0xFF, 0x01, 0x02, 0x24, 0xD8]).code ≠ .none) := by decide

theorem witness_CompletedExchangeEnds :
    ∀ a ∈ [Activity.ping, .read, .write, .regWrite, .reset, .scan],
      (let s := receiving a [0xFF, 0xFF, 0x01, 0x03, 0x00, 0x20] [some 0xDB]
       let P' := parsed [0xFF, 0xFF, 0x01, 0x03, 0x00, 0x20, 0xDB]
       s.D.phase = .rx ∧ NothingDue s.env.host ∧ s.env.rx = [some 0xDB] ∧ s.D.activity = a ∧
         pstep s.params s.P 0xDB = .ok P' ∧ P'.state = .complete ∧ P'.code = .none ∧
         Buffer.load 253 P'.pbuf P'.idx.toNat = .ok [0x20]) := by decide

/-- An id of the range, and one that ENCODE refuses. -/
theorem witness_ScanLoopTurns :
    (scanning 253 254).D.phase = .scan ∧ NothingDue (scanning 253 254).env.host ∧
      Target (scanning 253 254) (scanning 253 254).D.scanId ∧ (scanning 255 256).D.phase = .scan ∧
      NothingDue (scanning 255 256).env.host ∧ ¬ Target (scanning 255 256) (scanning 255 256).D.scanId := by decide

/-- What BroadcastOperationsNeverRead asks, for one form, with an operation that follows. -/
def BroadcastForm (r : Request) (i : Instr) : Prop :=
  let s := issuing r [some 1]
  s.params.Valid ∧ s.D.phase = .idle ∧ Issues s i later ∧ ∃ f, Broadcast s.params i f

theorem witness_BroadcastOperationsNeverRead :
    BroadcastForm { op := 0x12, id := 0xFE, offset := 0x18, bytes := [1] } (.write 0xFE 0x18 [1]) ∧
      BroadcastForm { op := 0x13, id := 0xFE, offset := 0x18, bytes := [1] } (.regWrite 0xFE 0x18 [1]) ∧
      BroadcastForm { op := 0x14, id := 0xFE } (.resetDevice 0xFE) ∧ BroadcastForm { op := 0x15 } .action ∧
      BroadcastForm { op := 0x16, offset := 0x1E, bytes := [1, 2], values := [[3], [4]] }
        (.syncWrite [1, 2] 0x1E [[3], [4]]) :=
  have hv : Params.default.Valid := by decide
  have hl : NothingDue later := by decide
  ⟨⟨hv, rfl, ⟨rfl, ⟨_, rfl, rfl⟩, hl⟩, _, .write 0x18 [1] (by decide)⟩,
    ⟨hv, rfl, ⟨rfl, ⟨_, rfl, rfl⟩, hl⟩, _, .regWrite 0x18 [1] (by decide)⟩,
    ⟨hv, rfl, ⟨rfl, ⟨_, rfl, rfl⟩, hl⟩, _, .reset⟩,
    ⟨hv, rfl, ⟨rfl, ⟨_, rfl, rfl⟩, hl⟩, _, .action⟩,
    hv, rfl, ⟨rfl, ⟨_, rfl, rfl⟩, hl⟩, _, .syncWrite [1, 2] 0x1E [[3], [4]] 1 rfl (by decide) (by decide) (by decide)⟩

/-- What the statements about addressed operations ask of an operation to device 1, with these answers of the
transport and an operation that follows. -/
def AddressedForm (rx : List (Option Byte)) (r : Request) (i : Instr) : Prop :=
  let s := issuing r rx
  s.params.Valid ∧ s.D.phase = .idle ∧ Target s 0x01 ∧ Issues s i later ∧ (∃ f, Addressed s.params 0x01 i f) ∧
    s.env.rx = rx

/-- Every addressed form. -/
theorem addressed_forms (rx : List (Option Byte)) :
    AddressedForm rx { op := 0x10, id := 0x01 } (.ping 0x01) ∧
      AddressedForm rx { op := 0x11, id := 0x01, offset := 0x2B, count := 0x01 } (.read 0x01 0x2B 0x01) ∧
      AddressedForm rx { op := 0x12, id := 0x01, offset := 0x18, bytes := [1] } (.write 0x01 0x18 [1]) ∧
      AddressedForm rx { op := 0x13, id := 0x01, offset := 0x18, bytes := [1] } (.regWrite 0x01 0x18 [1]) ∧
      AddressedForm rx { op := 0x14, id := 0x01 } (.resetDevice 0x01) :=
  have hv : Params.default.Valid := by decide
  have hl : NothingDue later := by decide
  have ht : (0x01 : Byte).toNat ≤ 253 := by decide
  have hb : (0x01 : Byte) ≠ Params.default.broadcastId := by decide
  ⟨⟨hv, rfl, .inl ht, ⟨rfl, ⟨_, rfl, rfl⟩, hl⟩, ⟨_, .ping⟩, rfl⟩,
    ⟨hv, rfl, .inl ht, ⟨rfl, ⟨_, rfl, rfl⟩, hl⟩, ⟨_, .read _ _⟩, rfl⟩,
    ⟨hv, rfl, .inl ht, ⟨rfl, ⟨_, rfl, rfl⟩, hl⟩, ⟨_, .write _ _ hb (by decide)⟩, rfl⟩,
    ⟨hv, rfl, .inl ht, ⟨rfl, ⟨_, rfl, rfl⟩, hl⟩, ⟨_, .regWrite _ _ hb (by decide)⟩, rfl⟩,
    hv, rfl, .inl ht, ⟨rfl, ⟨_, rfl, rfl⟩, hl⟩, ⟨_, .reset hb⟩, rfl⟩

/-- Every form, its reply cut off after three bytes. -/
theorem witness_AddressedOperationsTimeOut :
    let noise : List Byte := [0xFF, 0xFF, 0x01]
    let rx := noise.map some ++ none :: []
    AddressedForm rx { op := 0x10, id := 0x01 } (.ping 0x01) ∧
      AddressedForm rx { op := 0x11, id := 0x01, offset := 0x2B, count := 0x01 } (.read 0x01 0x2B 0x01) ∧
      AddressedForm rx { op := 0x12, id := 0x01, offset := 0x18, bytes := [1] } (.write 0x01 0x18 [1]) ∧
      AddressedForm rx { op := 0x13, id := 0x01, offset := 0x18, bytes := [1] } (.regWrite 0x01 0x18 [1]) ∧
      AddressedForm rx { op := 0x14, id := 0x01 } (.resetDevice 0x01) ∧
      feed Params.default Parser.reset.cleared noise = .ok (parsed noise) ∧ (parsed noise).done = false :=
  let ⟨h1, h2, h3, h4, h5⟩ := addressed_forms (([0xFF, 0xFF, 0x01] : List Byte).map some ++ none :: [])
  ⟨h1, h2, h3, h4, h5, by decide, by decide⟩

/-- Every form, with status 0 and with a device fault, from another device than the one addressed. -/
theorem witness_AddressedOperationsTakeTheReply :
    ∀ status ∈ [(0x00 : Byte), 0xFF],
      let rx := (frame 0x02 status [0x20]).map some ++ []
      AddressedForm rx { op := 0x10, id := 0x01 } (.ping 0x01) ∧
        AddressedForm rx { op := 0x11, id := 0x01, offset := 0x2B, count := 0x01 } (.read 0x01 0x2B 0x01) ∧
        AddressedForm rx { op := 0x12, id := 0x01, offset := 0x18, bytes := [1] } (.write 0x01 0x18 [1]) ∧
        AddressedForm rx { op := 0x13, id := 0x01, offset := 0x18, bytes := [1] } (.regWrite 0x01 0x18 [1]) ∧
        AddressedForm rx { op := 0x14, id := 0x01 } (.resetDevice 0x01) ∧ ([0x20] : List Byte).length ≤ 253 :=
  fun status _ =>
    let ⟨h1, h2, h3, h4, h5⟩ := addressed_forms ((frame 0x02 status [0x20]).map some ++ [])
    ⟨h1, h2, h3, h4, h5, by decide⟩

/-- A range cut below the broadcast id: one id silent, one answered by another device with a payload; and an empty
range. -/
theorem witness_ScanPingsInOrder :
    (let answers : List ScanAnswer := [none, some (0x07, [0x20])]
     let s := issuing { op := 0x17, id := 252, total := 16 } (scanAnswers answers ++ [some 0x00])
     s.params.Valid ∧ s.D.phase = .idle ∧ Issues s (.scan 252 16) later ∧
       answers.length = min ((252 : Byte).toNat + 16) (min s.params.broadcastId.toNat 254) - (252 : Byte).toNat ∧
       (∀ a ∈ answers, ∀ reply ∈ a, reply.2.length ≤ 253) ∧ s.env.rx = scanAnswers answers ++ [some 0x00]) ∧
    (let s := issuing { op := 0x17, id := 5, total := 0 } []
     Issues s (.scan 5 0) later ∧
       ([] : List ScanAnswer).length =
         min ((5 : Byte).toNat + 0) (min s.params.broadcastId.toNat 254) - (5 : Byte).toNat) :=
  have hl : NothingDue later := by decide
  ⟨⟨by decide, rfl, ⟨rfl, ⟨_, rfl, rfl⟩, hl⟩, by decide, by decide, rfl⟩, ⟨rfl, ⟨_, rfl, rfl⟩, hl⟩, by decide⟩

theorem witness_NoiseKeepsTheExchangeOpen :
    let s := { receiving .ping [] [] with
      env := { idle.env with host := later, rx := [some 0xFE], rxTail := .repeating [some 0x00] } }
    s.D.phase = .rx ∧ s.P.state = .seek1 ∧ NothingDue s.env.host ∧ (∀ a ∈ s.env.rx, ∃ b, a = some b ∧ b ≠ 0xFF) ∧
      s.env.rxTail = .repeating [some 0x00] ∧ [some (0x00 : Byte)] ≠ [] ∧
      ∀ a ∈ [some (0x00 : Byte)], ∃ b, a = some b ∧ b ≠ 0xFF := by
  refine ⟨by decide, by decide, by decide, ?_, by decide, by decide, ?_⟩
  · intro a h; rw [List.mem_singleton.mp h]; exact ⟨_, rfl, by decide⟩
  · intro a h; rw [List.mem_singleton.mp h]; exact ⟨_, rfl, by decide⟩

theorem witness_RejectedOperationsChangeOnlyTheResult :
    (Instr.ping 0xFF).isFrame = false ∧ idle.D.phase = .idle ∧
      ∃ t, exec (.ping 0xFF) idle = .next t ∧ t.D.phase = .idle ∧ t.D.result = .error (.validation .id) :=
  ⟨rfl, rfl, _, rfl, rfl, rfl⟩

/-- An instruction; a step that asserts `rst`; a step of an exchange, which does not. -/
theorem witness_NoOperationWritesParametersOrVerbosity :
    (∃ t, exec .action idle = .next t) ∧
    (let s := { idle with env := { idle.env with host := ⟨none, .rst⟩ :: later } }
     ResetAsserted s later ∧ ∃ t, step s = .next t) ∧
    (let s := receiving .ping [] [none]
     (∀ es, ¬ ResetAsserted s es) ∧ ∃ t, step s = .next t) :=
  ⟨⟨_, rfl⟩, ⟨.inr ⟨rfl, rfl⟩, _, rfl⟩,
    (fun _ h => h.elim (fun h => nomatch h) (fun h => nomatch h.1)), _, rfl⟩

theorem witness_CodecIsPure :
    (∃ t, exec (.validate []) idle = .next t) ∧ ∃ t, exec (.encodeOp 1 0 []) idle = .next t :=
  ⟨⟨_, rfl⟩, _, rfl⟩

/-- An exchange in its payload meets the invariant, and steps. -/
theorem witness_StepKeepsTheInvariant :
    let s := receiving .read [0xFF, 0xFF, 0x01, 0x04, 0x00, 0x20] [some 0x21]
    Inv s ∧ ∃ t, step s = .next t :=
  ⟨⟨by decide, ⟨by decide, .intro rfl (.intro (by decide) (by decide))⟩, by decide, by decide, rfl,
    .intro (by decide) (by decide), fun h => absurd h (by decide),
    by simp [receiving, idle, State.reset, Dispatcher.reset, ResultInv]⟩, _, rfl⟩

theorem witness_InvariantStatesAlwaysStep :
    Inv (receiving .read [0xFF, 0xFF, 0x01, 0x04, 0x00, 0x20] [some 0x21]) :=
  witness_StepKeepsTheInvariant.1

end Sys2Proof.Tests
end

namespace Sys2Proof.Machine

/-! ### Buffers: what a stored run of bytes leaves to be read (R17, R47, R48) -/

/-- A byte inside a run just stored: the slice over the run is the run itself, and its `k`-th byte is the buffer's. -/
theorem Buffer.get_store_inside (m : Buffer) (i : Nat) {bs : List Byte} {k : Nat} (h : k < bs.length) :
    Buffer.get (Buffer.store m i bs) (i + k) = bs[k] := by
  have hread : bs[k]? = some (Buffer.get (Buffer.store m i bs) (i + k)) := by
    simpa only [Buffer.slice_store] using Buffer.slice_getElem? (m := Buffer.store m i bs) (i := i) h
  exact ((List.getElem_eq_iff h).mpr hread).symm

/-- Settles O8: inside the run by `Buffer.get_store_inside`, outside it by `Buffer.get_store_outside`. -/
theorem storedBytesReadBack : Obligations.StoredBytesReadBack :=
  fun m i _ _ => ⟨fun _ h => Buffer.get_store_inside m i h, Buffer.get_store_outside⟩

end Sys2Proof.Machine

namespace Sys2Proof.Machine

/-! ### The values of the register types and of reset (R22, R31, R42, R81, R87, R88) -/

/-- Settles O7: every table entry is computed. -/
theorem registerEncodings : Obligations.RegisterEncodings :=
  ⟨rfl, rfl, rfl, rfl, rfl⟩

/-- Settles O9: every reset value is computed. -/
theorem resetValues : Obligations.ResetValues :=
  ⟨rfl, rfl, rfl, rfl, rfl, rfl, rfl, rfl, rfl, rfl, rfl⟩

/-! ### A command frame outside phase TX (log 9) -/

theorem transmit_outsideTx {s : State} (h : s.D.phase ≠ .tx) (id : Byte) (c : Cmd) (payload : List Byte)
    (reply : Bool) : transmit id c payload reply s = .refused .frameOutsideTx := if_neg h

/-- Settles O42: each of the seven frames is one transmission, and the host's operations are no frames. -/
theorem framesOutsideTxAreRefused : Obligations.FramesOutsideTxAreRefused := by
  intro s i hi hp
  cases i with
  | cmdPing | cmdRead | cmdWrite | cmdRegWrite | cmdAction | cmdReset | cmdSyncWrite =>
    exact transmit_outsideTx hp ..
  | _ => cases hi

/-! ### The reset input (R173, R175) -/

/-- An asserted reset is what the fetch takes, in any phase. -/
theorem fetch_of_resetAsserted {s : State} {later : List HostEvent} (h : Spec.ResetAsserted s later) :
    fetch s = .ok (.reset, { s with env := { s.env with host := later } }) := by
  rcases h with hh | ⟨hp, hh⟩
  · exact fetch_due hh
  · simp [fetch, hh, hp, hostTurn]

theorem step_of_resetAsserted {s : State} {later : List HostEvent} (h : Spec.ResetAsserted s later) :
    step s = .next (coreReset { s with env := { s.env with host := later } }) :=
  step_reset (fetch_of_resetAsserted h)

/-- The core by itself never resets. -/
theorem coreTurn_ne_reset (s : State) : coreTurn s ≠ .ok .reset := by
  unfold coreTurn
  cases s.D.phase with
  | tx => cases txFrame s <;> simp
  | _ => simp

/-- The fetch answers a reset only when the host asserts one. -/
theorem resetAsserted_of_fetch {s u : State} (h : fetch s = .ok (.reset, u)) :
    ∃ later, Spec.ResetAsserted s later := by
  have hcore := coreTurn_ne_reset
  have hact : ∀ act, hostTurn act = .reset → act = .rst := by
    intro act ha
    cases act with
    | op r => cases ha
    | rst => rfl
  unfold fetch at h
  dsimp only at h
  split at h
  · split at h <;> cases h; exact absurd ‹_› (hcore _)
  · rename_i act rest hh
    split_ifs at h with hp
    · injection h with h
      obtain rfl := hact act (congrArg Prod.fst h)
      exact ⟨rest, .inr ⟨hp, hh⟩⟩
    · split at h <;> cases h; exact absurd ‹_› (hcore _)
  · rename_i act rest hh
    injection h with h
    obtain rfl := hact act (congrArg Prod.fst h)
    exact ⟨rest, .inl hh⟩
  · split at h <;> cases h; exact absurd ‹_› (hcore _)

/-- Settles O10: an asserted reset is fetched in any phase, and `coreReset` gives every register its reset value. -/
theorem resetInputResetsTheBlock : Obligations.ResetInputResetsTheBlock := fun _ _ h =>
  ⟨_, step_of_resetAsserted h, rfl, rfl, rfl, rfl, rfl, rfl, rfl, rfl, rfl, rfl, rfl, rfl, rfl⟩

/-! ### The transport's answers (R57, R59) -/

/-- No instruction takes an answer from the transport. -/
theorem exec_keeps_rx {i : Instr} {s t : State} (h : exec i s = .next t) :
    t.env.rx = s.env.rx ∧ t.env.rxTail = s.env.rxTail := by
  cases exec_cases h <;> simp

/-- A turn of SCAN's loop takes no answer from the transport. -/
theorem scanTurn_keeps_rx {s t : State} (h : scanTurn s = .next t) :
    t.env.rx = s.env.rx ∧ t.env.rxTail = s.env.rxTail := by
  cases scanTurn_cases h <;> simp

/-- Settles O44: of the cases of a step only the receive loop reads, and it runs in phase RX. -/
theorem onlyRxReads : Obligations.OnlyRxReads := by
  intro s t h hp
  obtain ⟨es, hn⟩ := step_cases h
  cases hn with
  | host _ r he => exact (exec_keeps_rx he :)
  | frame _ f i _ _ _ he => exact (exec_keeps_rx he :)
  | reset => exact ⟨rfl, rfl⟩
  | receive _ hrx _ => exact absurd hrx hp
  | scan _ _ hs => exact (scanTurn_keeps_rx hs :)
  | wait => exact ⟨rfl, rfl⟩

/-! ### The parameters and the verbosity register (R33, R38) -/

/-- The parameters and the verbosity register of `t` are those of `s`. -/
def SameSettings (s t : State) : Prop :=
  t.params = s.params ∧ t.D.verbosity = s.D.verbosity

theorem exec_sameSettings {i : Instr} {s t : State} (h : exec i s = .next t) : SameSettings s t := by
  cases exec_cases h <;> simp [SameSettings]

theorem scanTurn_sameSettings {s t : State} (h : scanTurn s = .next t) : SameSettings s t := by
  cases scanTurn_cases h <;> simp [SameSettings]

/-- A read of the transport changes nothing but the transport. -/
theorem state_of_rxRead {s s1 : State} {a : Option Byte} (h : rxRead s = (a, s1)) :
    ∃ rx tail, s1 = { s with env := { s.env with rx := rx, rxTail := tail } } := by
  simpa [h] using rxRead_frame s

theorem timedOut_sameSettings (s : State) : SameSettings s (timedOut s) := by
  unfold timedOut
  split <;> simp [SameSettings]

theorem receive_sameSettings {s t : State} (h : receive s = .next t) : SameSettings s t := by
  cases receive_cases h with
  | silent s1 hr =>
    obtain ⟨rx, tail, rfl⟩ := state_of_rxRead hr
    exact timedOut_sameSettings _
  | more b s1 P' hr | failed b s1 P' hr | found b s1 P' hr | replied b s1 P' d hr =>
    obtain ⟨rx, tail, rfl⟩ := state_of_rxRead hr
    simp [SameSettings]

/-- Every step but a reset keeps the parameters and the verbosity. -/
theorem step_sameSettings {s t : State} (h : step s = .next t) (hr : ∀ u, fetch s ≠ .ok (.reset, u)) :
    SameSettings s t := by
  cases hf : fetch s with
  | error f => simp [step, hf] at h
  | ok ut =>
    obtain ⟨turn, u⟩ := ut
    obtain ⟨es, rfl⟩ := fetch_frame hf
    cases turn with
    | run c =>
      cases hd : decode s.params c with
      | ok i => rw [step_run hf hd] at h; exact (exec_sameSettings h :)
      | error e => simp [step, hf, hd] at h
    | reset => exact absurd hf (hr _)
    | receive => rw [step_receive hf] at h; exact (receive_sameSettings h :)
    | scan => rw [step_scan hf] at h; exact (scanTurn_sameSettings h :)
    | wait => rw [step_wait hf] at h; cases h; exact ⟨rfl, rfl⟩

/-- Settles O56: an asserted reset is a `coreReset`, and any other step keeps both. -/
theorem noOperationWritesParametersOrVerbosity : Obligations.NoOperationWritesParametersOrVerbosity := by
  refine ⟨fun s t i h => exec_sameSettings h, fun s t h => ?_⟩
  by_cases hr : ∃ later, Spec.ResetAsserted s later
  · obtain ⟨later, hl⟩ := hr
    rw [step_of_resetAsserted hl] at h
    cases h
    exact ⟨rfl, fun hn => absurd hl (hn later), fun _ _ => rfl⟩
  · obtain ⟨hparams, hverb⟩ := step_sameSettings h fun u hf => hr (resetAsserted_of_fetch hf)
    exact ⟨hparams, fun _ => hverb, fun later hl => absurd ⟨later, hl⟩ hr⟩

/-! ### The parser keeps its invariant (R104 to R110, R113) -/

/-- A parser that has stored no payload byte holds the sum of its three header registers. -/
theorem heldSum_of_idx_zero {P : Parser} (h : P.idx = 0) : heldSum P = P.devId + P.length + P.statusRaw := by
  simp [heldSum, h, Buffer.slice]

/-- One more stored byte adds itself to the sum of the stored ones. -/
theorem sum8_slice_set (m : Buffer) (n : Nat) (b : Byte) :
    sum8 (Buffer.slice (Buffer.set m n b) 0 (n + 1)) = sum8 (Buffer.slice m 0 n) + b := by
  have hbelow : Buffer.slice (Buffer.set m n b) 0 n = Buffer.slice m 0 n :=
    Buffer.slice_congr fun j _ hj => Buffer.get_set_other m b (by omega)
  simp [Buffer.slice_succ, hbelow, Buffer.get_set_same]

/-- An index below the payload's length does not wrap. -/
theorem idx_succ_toNat {P : Parser} (h : P.idx.toNat < npay P) : (P.idx + 1).toNat = P.idx.toNat + 1 := by
  have hle := npay_le P
  rw [BitVec.toNat_add]
  simp
  omega

/-- A device fault's code is never NOT_DONE, so no reply resolves to it (R118, R152). -/
theorem resolve_ne_notDone (p : Params) (b : Byte) : resolve p b ≠ .notDone := by
  have hfault : ∀ d, faultCode d ≠ .notDone := by intro d; cases d <;> decide
  unfold resolve
  split
  · decide
  · split
    · exact hfault _
    · decide

section
variable {p : Params} {P P' : Parser} {b : Byte}

/-- Clearing keeps the invariant: PBUF stays, and the registers are those of a search that begins (R114). -/
theorem ParserInv.cleared (h : ParserInv p P) : ParserInv p P.cleared := ⟨h.1, rfl⟩

theorem ParserInv.reset (p : Params) : ParserInv p Parser.reset := ⟨reset_buffers_wf.1, rfl⟩

/-- A parser of the preamble search differs from a cleared one in its state alone. -/
theorem eq_cleared_of_preamble (hr : P = { P.cleared with state := P.state }) (st : ParserState) :
    { P with state := st } = { P.cleared with state := st } :=
  congrArg (fun Q : Parser => { Q with state := st }) hr

theorem parserInv_pstepSeek1 (h : ParserInv p P) (hst : P.state = .seek1) : ParserInv p (pstepSeek1 P b) := by
  have hr : P = { P.cleared with state := P.state } := by simpa only [ParserRegs, hst] using h.2
  unfold pstepSeek1
  split_ifs
  · exact ⟨h.1, eq_cleared_of_preamble hr .seek2⟩
  · exact h

theorem parserInv_pstepSeek2 (h : ParserInv p P) (hst : P.state = .seek2) : ParserInv p (pstepSeek2 p P b) := by
  have hr : P = { P.cleared with state := P.state } := by simpa only [ParserRegs, hst] using h.2
  unfold pstepSeek2
  split_ifs
  · exact ⟨h.1, eq_cleared_of_preamble hr .id⟩
  · split
    · exact ⟨h.1, eq_cleared_of_preamble hr .seek1⟩
    · exact h

theorem parserInv_pstepId (h : ParserInv p P) (hst : P.state = .id) : ParserInv p (pstepId P b) := by
  have hr : P = { P.cleared with state := P.state } := by simpa only [ParserRegs, hst] using h.2
  have hcode : P.code = .notDone := congrArg Parser.code hr
  have hidx : P.idx = 0 := congrArg Parser.idx hr
  have hlen : P.length = 0 := congrArg Parser.length hr
  have hraw : P.statusRaw = 0 := congrArg Parser.statusRaw hr
  refine ⟨h.1, hcode, hidx, hlen, hraw, ?_⟩
  rw [heldSum_of_idx_zero (P := pstepId P b) hidx]
  simp [pstepId, hlen, hraw]

theorem parserInv_pstepLen (h : ParserInv p P) (hst : P.state = .len) : ParserInv p (pstepLen p P b) := by
  obtain ⟨hcode, hidx, hlen, hraw, hsum⟩ :
      P.code = .notDone ∧ P.idx = 0 ∧ P.length = 0 ∧ P.statusRaw = 0 ∧ P.sum = heldSum P := by
    simpa only [ParserRegs, hst] using h.2
  have hheld : P.sum + b = P.devId + b + P.statusRaw := by
    rw [hsum, heldSum_of_idx_zero hidx, hlen, hraw]; simp
  have hstatus : ParserInv p { P with length := b, sum := P.sum + b, idx := 0, state := .status } := by
    refine ⟨h.1, hcode, rfl, hraw, ?_⟩
    rw [heldSum_of_idx_zero]
    · exact hheld
    · rfl
  unfold pstepLen
  dsimp only
  split_ifs with hb
  · exact hstatus
  · split
    · exact ⟨h.1, .inl ⟨rfl, rfl, Nat.not_le.mp hb, ‹_›⟩⟩
    · exact hstatus

theorem parserInv_pstepStatus (h : ParserInv p P) (hst : P.state = .status) : ParserInv p (pstepStatus P b) := by
  obtain ⟨hcode, hidx, hraw, hsum⟩ :
      P.code = .notDone ∧ P.idx = 0 ∧ P.statusRaw = 0 ∧ P.sum = heldSum P := by
    simpa only [ParserRegs, hst] using h.2
  have hheld : P.sum + b = heldSum (pstepStatus P b) := by
    rw [hsum, heldSum_of_idx_zero hidx, heldSum_of_idx_zero (P := pstepStatus P b) hidx, hraw]
    simp [pstepStatus]
  have hidx0 : P.idx.toNat = 0 := congrArg BitVec.toNat hidx
  refine ⟨h.1, ?_⟩
  unfold pstepStatus at hheld ⊢
  split_ifs at hheld ⊢ with hn
  · exact ⟨hcode, hidx0.trans hn.symm, hheld⟩
  · exact ⟨hcode, hidx0.trans_lt (Nat.pos_of_ne_zero hn), hheld⟩

theorem parserInv_payloadByte (h : ParserInv p P) (hst : P.state = .payload) (hs : pstep p P b = .ok P') :
    ParserInv p P' := by
  obtain ⟨hcode, hidx, hsum⟩ : P.code = .notDone ∧ P.idx.toNat < npay P ∧ P.sum = heldSum P := by
    simpa only [ParserRegs, hst] using h.2
  have hcap : P.idx.toNat < 253 := lt_of_lt_of_le hidx (npay_le P)
  have hsucc := idx_succ_toNat hidx
  have hheld : P.sum + b = P.devId + P.length + P.statusRaw +
      sum8 (Buffer.slice (Buffer.set P.pbuf P.idx.toNat b) 0 (P.idx + 1).toNat) := by
    rw [hsucc, sum8_slice_set, hsum, heldSum, BitVec.add_assoc]
  rw [pstep_payload hst hcap] at hs
  cases hs
  refine ⟨Buffer.set_wf b h.1 hcap, ?_⟩
  split_ifs with hn
  · exact ⟨hcode, hsucc.trans hn, hheld⟩
  · exact ⟨hcode, by rw [hsucc]; exact lt_of_le_of_ne hidx hn, hheld⟩

theorem parserInv_pstepCheck (h : ParserInv p P) (hst : P.state = .check) : ParserInv p (pstepCheck p P b) := by
  obtain ⟨-, hidx, -⟩ : P.code = .notDone ∧ P.idx.toNat = npay P ∧ P.sum = heldSum P := by
    simpa only [ParserRegs, hst] using h.2
  unfold pstepCheck
  dsimp only
  split_ifs with hff
  · exact ⟨h.1, rfl, hidx, hff⟩
  · exact ⟨h.1, .inr ⟨rfl, hidx, hff⟩⟩

/-- Every byte the parser takes keeps its invariant. -/
theorem ParserInv.pstep (h : ParserInv p P) (hs : pstep p P b = .ok P') : ParserInv p P' := by
  cases hst : P.state with
  | seek1 => rw [pstep_seek1 hst] at hs; cases hs; exact parserInv_pstepSeek1 h hst
  | seek2 => rw [pstep_seek2 hst] at hs; cases hs; exact parserInv_pstepSeek2 h hst
  | id => rw [pstep_id hst] at hs; cases hs; exact parserInv_pstepId h hst
  | len => rw [pstep_len hst] at hs; cases hs; exact parserInv_pstepLen h hst
  | status => rw [pstep_status hst] at hs; cases hs; exact parserInv_pstepStatus h hst
  | payload => exact parserInv_payloadByte h hst hs
  | check => rw [pstep_check hst] at hs; cases hs; exact parserInv_pstepCheck h hst
  | complete | failed =>
    have hd : P.done = true := by simp [Parser.done, hst]
    rw [pstep_terminal hd] at hs; cases hs

/-- A terminal parser's code is never NOT_DONE. -/
theorem ParserInv.code_ne_notDone (h : ParserInv p P) (hst : P.state = .complete ∨ P.state = .failed) :
    P.code ≠ .notDone := by
  rcases hst with hst | hst
  · obtain ⟨hc, -⟩ : P.code = resolve p P.statusRaw ∧ P.idx.toNat = npay P ∧ P.sum = 0xFF := by
      simpa only [ParserRegs, hst] using h.2
    rw [hc]; exact resolve_ne_notDone p _
  · have hr := h.2
    simp only [ParserRegs, hst] at hr
    rcases hr with ⟨hc, -⟩ | ⟨hc, -⟩ <;> simp [hc]

/-- A failed parser's code is an error's (R126). -/
theorem ParserInv.code_ne_none (h : ParserInv p P) (hst : P.state = .failed) : P.code ≠ .none := by
  have hr := h.2
  simp only [ParserRegs, hst] at hr
  rcases hr with ⟨hc, -⟩ | ⟨hc, -⟩ <;> simp [hc]

end

end Sys2Proof.Machine

namespace Sys2Proof

/-! ### A frame the block builds decodes to the command it was built for (R65 to R78) -/

/-- The payload of a SYNC_WRITE frame decodes to its offset, ids and values (R78). -/
theorem decodePayload_syncPayload {p : Params} {offset : Byte} {ids : List Byte} {values : List (List Byte)}
    (hs : syncShapeOk ids values = true) (hl : syncPayloadLength ids values ≤ 253) :
    decodePayload p p.broadcastId (syncPayload offset ids values) .syncWrite =
      .ok (.cmdSyncWrite offset ids values) := by
  obtain ⟨⟨hlen, hne⟩, hall⟩ : (ids.length = values.length ∧ ids ≠ []) ∧
      ∀ v ∈ values, v.length = (values.headD []).length := by
    simpa [syncShapeOk] using hs
  obtain ⟨i, rest, rfl⟩ := List.exists_cons_of_ne_nil hne
  simp only [syncPayloadLength] at hl
  generalize hk : (values.headD []).length = k at hall hl
  have hk253 : k ≤ 253 := by
    have := Nat.le_mul_of_pos_left (1 + k) (show 0 < rest.length + 1 by omega)
    simp only [List.length_cons] at hl
    omega
  have hbyte : (BitVec.ofNat 8 k).toNat = k := by simp; omega
  have hcount := length_flatMap_zip hlen hall
  have hparse := parseEntries_zip (n := ((i :: rest).length * (1 + k))) hlen hall
    (Nat.le_mul_of_pos_right _ (by omega))
  simp only [syncPayload, hk, List.cons_append, List.nil_append, decodePayload, if_true, hbyte, hcount, hparse]

/-- The decoder reads back the frame of every well-formed command. -/
theorem decodeFrame_of_encode {p : Params} {i : Instr} {f : List Byte} (hp : p.Valid)
    (hw : wellFormed p i = true) (he : encode p i = .frame f) : decodeFrame p f = .ok i := by
  cases i with
  | cmdPing id =>
    cases he
    rw [decodeFrame_buildFrame hp hw (by simp)]; simp [decodePayload]
  | cmdRead id offset count =>
    cases he
    rw [decodeFrame_buildFrame hp hw (by simp)]; simp [decodePayload]
  | cmdWrite id offset data =>
    cases he
    obtain ⟨hid, hl⟩ : idInDomain p id = true ∧ 1 + data.length ≤ 253 := by simpa [wellFormed] using hw
    rw [decodeFrame_buildFrame hp hid (by simp; omega)]; simp [decodePayload]
  | cmdRegWrite id offset data =>
    cases he
    obtain ⟨hid, hl⟩ : idInDomain p id = true ∧ 1 + data.length ≤ 253 := by simpa [wellFormed] using hw
    rw [decodeFrame_buildFrame hp hid (by simp; omega)]; simp [decodePayload]
  | cmdAction =>
    cases he
    rw [decodeFrame_buildFrame hp (broadcast_inDomain p) (by simp)]; simp [decodePayload]
  | cmdReset id =>
    cases he
    rw [decodeFrame_buildFrame hp hw (by simp)]; simp [decodePayload]
  | cmdSyncWrite offset ids values =>
    cases he
    obtain ⟨hs, hl⟩ : syncShapeOk ids values = true ∧ syncPayloadLength ids values ≤ 253 := by
      simpa [wellFormed] using hw
    rw [decodeFrame_buildFrame hp (broadcast_inDomain p) ((syncPayload_length hs).trans_le hl)]
    exact decodePayload_syncPayload hs hl
  | _ => cases he

end Sys2Proof

namespace Sys2Proof.Machine

/-! ### The part of the invariant that no phase shapes -/

/-- The clauses of the invariant on registers whose meaning does not depend on the phase. -/
structure RegsInv (s : State) : Prop where
  params : s.params.Valid
  parser : ParserInv s.params s.P
  txbuf : Buffer.Wf Config.txCapacity s.D.txbuf
  txlen : s.D.txlen.toNat ≤ Config.txCapacity
  verbosity : s.D.verbosity = s.params.verbosityInit
  result : ResultInv s.D.result

/-- What holds of the scan registers when a turn of SCAN's loop begins or its test is made (R146, R147, R149). -/
structure ScanRegs (s : State) : Prop where
  bound : s.D.scanEnd.toNat ≤ min s.params.broadcastId.toNat 254
  rising : s.D.scanLog.Pairwise fun x y => x.id.toNat < y.id.toNat
  below : ∀ e ∈ s.D.scanLog, e.id.toNat < s.D.scanId.toNat
  flag : s.D.scanFound = s.D.scanLog.any (·.found)

section
variable {s t : State}

theorem Inv.regs (h : Inv s) : RegsInv s :=
  ⟨h.params, h.parser, h.txbuf, h.txlen, h.verbosity, h.result⟩

theorem RegsInv.inv (h : RegsInv s) (hp : PhaseInv s) (hs : ScanInv s) : Inv s :=
  ⟨h.params, h.parser, h.txbuf, h.txlen, h.verbosity, hp, hs, h.result⟩

/-- The invariant says nothing about the host and the transport. -/
theorem Inv.withEnv (h : Inv s) (e : Env) : Inv { s with env := e } :=
  ⟨h.params, h.parser, h.txbuf, h.txlen, h.verbosity, h.phase, h.scan, h.result⟩

theorem RegsInv.withParser (h : RegsInv s) {P : Parser} (hP : ParserInv s.params P) :
    RegsInv { s with P := P } :=
  { h with parser := hP }

theorem RegsInv.loadTx (h : RegsInv s) {f : List Byte} (hf : f.length ≤ Config.txCapacity) :
    RegsInv (loadTx f s) :=
  { h with
    txbuf := Buffer.store_wf h.txbuf (by omega)
    txlen := (Nat.mod_le _ _).trans hf }

/-- The length of a frame that fits TXBUF fits `D.txlen`. -/
theorem txlen_toNat {n : Nat} (h : n ≤ Config.txCapacity) : (BitVec.ofNat 9 n).toNat = n := by
  simp only [Config.txCapacity] at h
  simp
  omega

/-! ### What each end of a step gives -/

/-- An operation that ends leaves the block in IDLE with no activity (R123). -/
theorem RegsInv.endOp (h : RegsInv s) {r : Result} (hr : ResultInv r) (log : List ScanEvent) :
    Inv (endOp r log s) :=
  RegsInv.inv { h with result := hr } rfl (fun ha => nomatch ha)

theorem RegsInv.succeed (h : RegsInv s) (c : ErrorCode) (d : Data) : Inv (succeed c d s) :=
  h.endOp (by simp [ResultInv]) []

theorem RegsInv.busError (h : RegsInv s) {c : ErrorCode} (h1 : c ≠ .none) (h2 : c ≠ .notDone) :
    Inv (busError c s) :=
  h.endOp (by simp [ResultInv, h1, h2]) _

/-- An operation that starts has in TXBUF the frame its activity transmits (R97, R124, R125). -/
theorem RegsInv.launch (h : RegsInv s) {a : Activity} {j : Instr} {f : List Byte} (ha : a ≠ .scan)
    (hc : Carries a j) (hw : wellFormed s.params j = true) (he : encode s.params j = .frame f)
    (hf : f.length ≤ Config.txCapacity) : Inv (launch a f s) := by
  have hr : RegsInv (Sys2Proof.Machine.launch a f s) := { h.loadTx hf with }
  refine hr.inv ⟨f, j, ?_, decodeFrame_of_encode h.params hw he, hc⟩ fun hscan => absurd hscan ha
  rw [launch_D_txlen, txlen_toNat hf]
  exact Buffer.load_store s.D.txbuf hf

/-- A reply is awaited with a fresh parser (R124). -/
theorem RegsInv.awaiting (h : RegsInv s)
    (ha : s.D.activity ∈ [.ping, .read, .write, .regWrite, .reset, .scan]) (hs : ScanInv s) (e : Env) :
    Inv { s with P := s.P.cleared, D := { s.D with phase := .rx }, env := e } :=
  RegsInv.inv { h with parser := h.parser.cleared } ⟨rfl, ha⟩ hs

/-- SCAN's loop test (R146): the scan goes on inside its range, or ends. -/
theorem RegsInv.scanNext (h : RegsInv s) (ha : s.D.activity = .scan) (hs : ScanRegs s) : Inv (scanNext s) := by
  by_cases hlt : s.D.scanId.toNat < s.D.scanEnd.toNat
  · rw [scanNext_of_lt hlt]
    exact RegsInv.inv { h with } ha fun _ => ⟨hs.bound, hlt, hs.rising, hs.below, hs.flag⟩
  · rw [scanNext_of_le (Nat.not_lt.mp hlt)]
    exact h.endOp (by simp [ResultInv]) _

theorem scanRegs_scanInit (startId : Byte) (count : Nat) (s : State) : ScanRegs (scanInit startId count s) where
  bound := (Nat.mod_le _ _).trans (min_le_right _ _)
  rising := .nil
  below := fun _ he => nomatch he
  flag := rfl

/-- Logging a PING's event takes the id in turn into the log and steps to the next one (R146, R149). -/
theorem ScanInv.scanLogged (h : ScanInv s) (ha : s.D.activity = .scan) (found : Bool) :
    ScanRegs (scanLogged found s) := by
  obtain ⟨hbound, hlt, hrising, hbelow, hflag⟩ := h ha
  have hsucc : (s.D.scanId + 1).toNat = s.D.scanId.toNat + 1 := by
    rw [BitVec.toNat_add]; simp; omega
  refine ⟨hbound, ?_, ?_, ?_⟩
  · simpa [List.pairwise_append] using ⟨hrising, hbelow⟩
  · intro e he
    rw [scanLogged_D_scanId, hsucc]
    rcases List.mem_append.mp he with he | he
    · exact Nat.lt_succ_of_lt (hbelow e he)
    · rw [List.mem_singleton.mp he]; exact Nat.lt_succ_self _
  · simp [hflag]

/-- A resolved PING of a SCAN keeps the invariant, whether a device answered or not. -/
theorem RegsInv.scanResolved (h : RegsInv s) (ha : s.D.activity = .scan) (hs : ScanInv s) (found : Bool) :
    Inv (scanResolved found s) :=
  RegsInv.scanNext (s := scanLogged found s) { h with } ha (hs.scanLogged ha found)

/-! ### The three kinds of step -/

/-- Every instruction keeps the invariant, a command frame if it is the one the operation in progress transmits. -/
theorem inv_of_exec {i : Instr} (h : Inv s) (hc : i.isFrame = true → Carries s.D.activity i)
    (he : exec i s = .next t) : Inv t := by
  cases exec_cases he with
  | busy => exact h.withEnv _
  | answer r _ _ hr => exact h.regs.endOp hr []
  | load f _ _ hf => exact (h.regs.loadTx hf).succeed _ _
  | clear => exact (h.regs.withParser h.parser.cleared).succeed _ _
  | byte b P' _ _ _ hs => exact (h.regs.withParser (h.parser.pstep hs)).succeed _ _
  | start a j f _ _ ha hcar hw henc hf => exact h.regs.launch ha hcar hw henc hf
  | scan startId count =>
    exact RegsInv.scanNext (s := scanInit startId count s) { h.regs with } rfl (scanRegs_scanInit startId count s)
  | await f hi _ _ hact =>
    exact h.regs.awaiting (List.mem_append_left [Activity.scan] (hact _ (hc hi))) h.scan _
  | finish f => exact RegsInv.succeed (s := txWrite f s) { h.regs with } _ _

/-- NONE from the transport keeps the invariant (R126, R129, R146). -/
theorem inv_of_timedOut (h : Inv s) : Inv (timedOut s) := by
  unfold timedOut
  split
  · exact h.regs.succeed _ _
  · exact h.regs.scanResolved ‹_› h.scan false
  · exact h.regs.busError (by decide) (by decide)

/-- What the invariant says in phase RX. -/
theorem Inv.phase_rx (h : Inv s) (hp : s.D.phase = .rx) :
    s.P.done = false ∧ s.D.activity ∈ [.ping, .read, .write, .regWrite, .reset, .scan] := by
  simpa only [PhaseInv, hp] using h.phase

/-- A read of the transport keeps the invariant and the block's registers. -/
theorem Inv.of_rxRead (h : Inv s) {s1 : State} {a : Option Byte} (hr : rxRead s = (a, s1)) :
    Inv s1 ∧ s1.D = s.D := by
  obtain ⟨rx, tail, rfl⟩ := state_of_rxRead hr
  exact ⟨h.withEnv _, rfl⟩

/-- Every end of one iteration of the receive loop keeps the invariant (R124, R126). -/
theorem inv_of_receive (h : Inv s) (hp : s.D.phase = .rx) (hr : receive s = .next t) : Inv t := by
  cases receive_cases hr with
  | silent s1 hread => exact inv_of_timedOut (h.of_rxRead hread).1
  | more b s1 P' hread hs hd =>
    obtain ⟨h1, hD⟩ := h.of_rxRead hread
    have hp1 : s1.D.phase = .rx := by rw [hD, hp]
    refine (h1.regs.withParser (h1.parser.pstep hs)).inv ?_ h1.scan
    simpa only [PhaseInv, hp1] using ⟨hd, (h1.phase_rx hp1).2⟩
  | failed b s1 P' hread hs hend =>
    obtain ⟨h1, -⟩ := h.of_rxRead hread
    have hP := h1.parser.pstep hs
    refine (h1.regs.withParser hP).busError ?_ (hP.code_ne_notDone ?_)
    · exact hend.elim hP.code_ne_none And.right
    · exact hend.elim .inr fun hc => .inl hc.1
  | found b s1 P' hread hs _ ha =>
    obtain ⟨h1, -⟩ := h.of_rxRead hread
    exact (h1.regs.withParser (h1.parser.pstep hs)).scanResolved ha h1.scan true
  | replied b s1 P' d hread hs =>
    obtain ⟨h1, -⟩ := h.of_rxRead hread
    exact (h1.regs.withParser (h1.parser.pstep hs)).succeed _ _

/-- A turn of SCAN's loop keeps the invariant, its PING being sent or refused (R146). -/
theorem inv_of_scanTurn (h : Inv s) (hp : s.D.phase = .scan) (hr : scanTurn s = .next t) : Inv t := by
  have ha : s.D.activity = .scan := by simpa only [PhaseInv, hp] using h.phase
  cases scanTurn_cases hr with
  | ping f hf =>
    have hlen : f.length ≤ Config.txCapacity := by simp [hf, Config.txCapacity]
    exact RegsInv.awaiting (s := launch .scan f s) { h.regs.loadTx hlen with } (by simp) (fun _ => h.scan ha) _
  | refused k => exact h.regs.endOp (by simp [ResultInv]) _

/-- The reset values meet the invariant under any valid parameters (R42). -/
theorem inv_of_coreReset (h : s.params.Valid) : Inv (coreReset s) :=
  RegsInv.inv ⟨h, .reset _, reset_buffers_wf.2, Nat.zero_le _, rfl, by simp [Dispatcher.reset, ResultInv]⟩
    rfl (fun ha => nomatch ha)

/-- The frame in TXBUF in phase TX is the one the operation in progress transmits. -/
theorem Inv.carries (h : Inv s) (hp : s.D.phase = .tx) {f : List Byte} {i : Instr} (hf : txFrame s = .ok f)
    (hd : decodeFrame s.params f = .ok i) : Carries s.D.activity i := by
  obtain ⟨f', i', hf', hd', hc⟩ : ∃ f' i', txFrame s = .ok f' ∧ decodeFrame s.params f' = .ok i' ∧
      Carries s.D.activity i' := by
    simpa only [PhaseInv, hp, txFrame] using h.phase
  cases hf.symm.trans hf'
  cases hd.symm.trans hd'
  exact hc

end

/-- Settles O58: the fetch moves only the host's schedule, and each kind of step keeps the invariant. -/
theorem stepKeepsTheInvariant : Obligations.StepKeepsTheInvariant := by
  intro s t h hstep
  obtain ⟨es, hn⟩ := step_cases hstep
  have hu := h.withEnv { s.env with host := es }
  cases hn with
  | host _ r he => exact inv_of_exec hu (fun hi => by simp [decodeRequest_isFrame] at hi) he
  | frame _ f i hp hf hd he => exact inv_of_exec hu (fun _ => h.carries hp hf hd) he
  | reset => exact inv_of_coreReset h.params
  | receive _ hp hr => exact inv_of_receive hu hp hr
  | scan _ hp hr => exact inv_of_scanTurn hu hp hr
  | wait => exact hu

/-- Settles O59: the reset state is its own reset, at the default parameters. -/
theorem resetMeetsTheInvariant : Obligations.ResetMeetsTheInvariant :=
  inv_of_coreReset (s := State.reset) (by decide)

end Sys2Proof.Machine

namespace Sys2Proof

/-! ### A frame that decodes is the frame of what was read (R45, R65 to R78) -/

/-- The devices read from a payload are as many ids as values, each value `k` bytes wide, and written out again they
are the bytes that were read (R78). -/
theorem parseEntries_some {k n : Nat} {bs ids : List Byte} {values : List (List Byte)}
    (h : parseEntries k n bs = some (ids, values)) :
    ids.length = values.length ∧ (∀ v ∈ values, v.length = k) ∧
      (ids.zip values).flatMap (fun e => e.1 :: e.2) = bs := by
  induction n generalizing bs ids values with
  | zero =>
    cases bs with
    | nil => cases h; simp
    | cons => cases h
  | succ n ih =>
    cases bs with
    | nil => cases h; simp
    | cons id rest =>
      rw [parseEntries] at h
      split_ifs at h with hk
      obtain ⟨⟨ids', values'⟩, hrest, he⟩ := Option.map_eq_some_iff.mp h
      cases he
      obtain ⟨hlen, hwidth, hbytes⟩ := ih hrest
      refine ⟨by simp [hlen], ?_, ?_⟩
      · simpa using ⟨Nat.not_lt.mp hk, hwidth⟩
      · simp [hbytes]

/-- Devices of one width make a SYNC_WRITE shape, and a width that came from a byte goes back into that byte. -/
theorem syncPayload_of_parseEntries {offset k i : Byte} {n : Nat} {bs ids : List Byte} {values : List (List Byte)}
    (h : parseEntries k.toNat n bs = some (i :: ids, values)) :
    syncShapeOk (i :: ids) values = true ∧ syncPayload offset (i :: ids) values = offset :: k :: bs := by
  obtain ⟨hlen, hwidth, hbytes⟩ := parseEntries_some h
  obtain ⟨v, vs, rfl⟩ := List.exists_cons_of_length_eq_add_one hlen.symm
  have hv : v.length = k.toNat := hwidth v (List.mem_cons_self ..)
  constructor
  · simp only [List.length_cons, Nat.add_right_cancel_iff] at hlen
    simpa [syncShapeOk, hv, hlen] using fun w hw => hwidth w (List.mem_cons_of_mem _ hw)
  · simp only [syncPayload, List.headD_cons, hv, BitVec.ofNat_toNat, BitVec.setWidth_eq, hbytes]
    rfl

/-- An instruction read from the target and the payload of a command is a frame with that target and payload, and
well formed where ENCODE would take them. -/
theorem encode_of_decodePayload {p : Params} {id : Byte} {payload : List Byte} {c : Cmd} {i : Instr}
    (h : decodePayload p id payload c = .ok i) :
    i.isFrame = true ∧ encode p i = .frame (buildFrame id (p.code c) payload) ∧
      (idInDomain p id = true → payload.length ≤ 253 → wellFormed p i = true) := by
  cases c with
  | ping | reset =>
    simp only [decodePayload] at h
    split_ifs at h with hnil
    subst hnil
    cases h
    exact ⟨rfl, rfl, fun hid _ => hid⟩
  | read =>
    simp only [decodePayload] at h
    split at h <;> cases h
    exact ⟨rfl, rfl, fun hid _ => hid⟩
  | write | regWrite =>
    simp only [decodePayload] at h
    split at h <;> cases h
    refine ⟨rfl, rfl, fun hid hl => ?_⟩
    simpa [wellFormed, hid, Nat.add_comm] using hl
  | action =>
    simp only [decodePayload] at h
    split_ifs at h with hb
    obtain ⟨rfl, rfl⟩ := hb
    cases h
    exact ⟨rfl, rfl, fun _ _ => rfl⟩
  | syncWrite =>
    simp only [decodePayload] at h
    split at h
    · split_ifs at h with hb
      split at h <;> cases h
      obtain ⟨hshape, hbytes⟩ := syncPayload_of_parseEntries ‹_›
      subst hb
      refine ⟨rfl, by rw [encode, hbytes], fun _ hl => ?_⟩
      rw [← hbytes, syncPayload_length hshape] at hl
      simp [wellFormed, hshape, hl]
    · cases h

/-- Bytes that decode are a frame of the layout of R65: its length byte, its checksum and its target are ENCODE's. -/
theorem decodeFrame_ok {p : Params} {f : List Byte} {i : Instr} (h : decodeFrame p f = .ok i) :
    ∃ id c payload, f = buildFrame id (p.code c) payload ∧ idInDomain p id = true ∧ payload.length ≤ 253 ∧
      decodePayload p id payload c = .ok i := by
  unfold decodeFrame at h
  split at h
  · rename_i m1 m2 id length code rest
    dsimp only at h
    split_ifs at h with hmark hlength hsum htarget
    split at h
    · cases h
    · rename_i c hc
      obtain ⟨rfl, rfl⟩ : m1 = Config.marker ∧ m2 = Config.marker := by simpa using hmark
      obtain ⟨-, hl⟩ : rest ≠ [] ∧ length.toNat = rest.dropLast.length + 2 := by simpa using hlength
      have hlast : rest.getLast? = some (checksumOf (id :: length :: code :: rest.dropLast)) := by
        simpa using hsum
      have hrest := List.dropLast_append_getLast? _ hlast
      have hbyte : BitVec.ofNat 8 (rest.dropLast.length + 2) = length := by rw [← hl]; simp
      have hcap := length.isLt
      refine ⟨id, c, rest.dropLast, ?_, by simpa using htarget, by omega, h⟩
      rw [buildFrame_eq, code_of_commandOf hc]
      simp only [frameBody, hbyte, List.cons_append, List.nil_append]
      rw [hrest]
  · cases h

/-- Settles O2: the bytes are a frame built from a target and a payload, and these are the instruction's. -/
theorem decodedFrameReencodes : Obligations.DecodedFrameReencodes := by
  intro p f i h
  obtain ⟨id, c, payload, rfl, hid, hl, hpayload⟩ := decodeFrame_ok h
  obtain ⟨hframe, hencode, hwf⟩ := encode_of_decodePayload hpayload
  exact ⟨hframe, hwf hid hl, hencode⟩

end Sys2Proof

namespace Sys2Proof.Machine

/-! ### PROCESS_BYTE in PAYLOAD (R103, R109) -/

/-- A parser short of its terminal states has no outcome yet (R30). -/
theorem outcome_of_not_done {P : Parser} (h : P.done = false) : outcome P = .notDone := by
  unfold outcome
  split
  case h_1 hst | h_2 hst => simp [Parser.done, hst] at h
  case h_3 => rfl

/-- Settles O22: a declared payload byte lies inside PBUF, so the parser takes it, and it is not terminal after it. -/
theorem payloadByte : Obligations.PayloadByte := by
  intro s b hp hst hi
  have hcap : s.P.idx.toNat < 253 := hi.trans_le (npay_le s.P)
  rw [exec_processByte_idle hp (by simp [Parser.done, hst]) (pstep_payload hst hcap), outcome_of_not_done]
  · rfl
  · by_cases hlast : s.P.idx.toNat + 1 = npay s.P
    · simp [Parser.done, hlast]
    · simp [Parser.done, hlast]

/-! ### The codec (R57, R100) -/

section
variable {i : Instr} {s t : State}

/-- What ENCODE can do: it is answered F_BUSY, it raises an error, or it leaves its frame in TXBUF. -/
theorem exec_encodeOp_cases {id : Byte} {cmd : BitVec 3} {payload : List Byte}
    (h : exec (.encodeOp id cmd payload) s = .next t) :
    t = refuseBusy s ∨ (∃ e, t = raise e s) ∨ ∃ f, t = succeed .none (.bytes f) (loadTx f s) := by
  simp only [exec, execEncode] at h
  rcases accept_next h with ⟨-, h⟩ | ⟨-, rfl⟩
  · cases hc : cmdOfSelector cmd with
    | none => simp only [hc] at h; cases h; exact .inr (.inl ⟨_, rfl⟩)
    | some c =>
      simp only [hc] at h
      cases hf : encodeCommand s.params id c payload with
      | error k => simp only [hf] at h; cases h; exact .inr (.inl ⟨_, rfl⟩)
      | ok f => simp only [hf] at h; cases h; exact .inr (.inr ⟨f, rfl⟩)
  · exact .inl rfl

/-- What CHECKSUM and VALIDATE can do: they are answered F_BUSY, or give a result. -/
theorem exec_checksum_validate_cases {bytes : List Byte} (hi : i = .checksum bytes ∨ i = .validate bytes)
    (h : exec i s = .next t) : t = refuseBusy s ∨ ∃ d, t = succeed .none d s := by
  obtain ⟨d, hd⟩ : ∃ d, exec i s = accept s fun s => .next (succeed .none d s) := by
    rcases hi with rfl | rfl
    · exact ⟨_, rfl⟩
    · exact ⟨_, rfl⟩
  rcases accept_next (hd.symm.trans h) with ⟨-, h⟩ | ⟨-, rfl⟩
  · cases h; exact .inr ⟨d, rfl⟩
  · exact .inl rfl

/-- Settles O57: each end of a codec operation writes only the dispatcher's registers and the host's replies. -/
theorem codecIsPure : Obligations.CodecIsPure := by
  intro s t i hi h
  rcases hi with ⟨bytes, hi⟩ | ⟨id, cmd, payload, rfl⟩
  · rcases exec_checksum_validate_cases hi h with rfl | ⟨d, rfl⟩
    · exact ⟨rfl, rfl, rfl, rfl, rfl, fun _ => ⟨rfl, rfl⟩⟩
    · exact ⟨rfl, rfl, rfl, rfl, rfl, fun _ => ⟨rfl, rfl⟩⟩
  · have hother : ¬ ∃ bytes, Instr.encodeOp id cmd payload = .checksum bytes ∨
        Instr.encodeOp id cmd payload = .validate bytes := by simp
    rcases exec_encodeOp_cases h with rfl | ⟨e, rfl⟩ | ⟨f, rfl⟩
    · exact ⟨rfl, rfl, rfl, rfl, rfl, fun hc => absurd hc hother⟩
    · exact ⟨rfl, rfl, rfl, rfl, rfl, fun hc => absurd hc hother⟩
    · exact ⟨rfl, rfl, rfl, rfl, rfl, fun hc => absurd hc hother⟩

/-! ### What is transmitted, and when (R48, R55, R127, R185) -/

/-- The list of transmitted frames grew by the bytes `0 .. D.txlen - 1` of TXBUF (R48). -/
def TransmitsTxbuf (s t : State) : Prop :=
  ∃ f, txFrame t = .ok f ∧ t.env.sent = s.env.sent ++ [f]

/-- No operation of the host transmits. -/
theorem exec_keeps_sent (hi : i.isFrame = false) (h : exec i s = .next t) : t.env.sent = s.env.sent := by
  cases exec_cases h with
  | await f hf | finish f hf => rw [hi] at hf; cases hf
  | _ => simp

/-- A command frame is transmitted as it is encoded, and TXBUF stays as it is. -/
theorem exec_frame_sends (hi : i.isFrame = true) (h : exec i s = .next t) :
    t.D.txbuf = s.D.txbuf ∧ t.D.txlen = s.D.txlen ∧
      ∃ f, encode s.params i = .frame f ∧ t.env.sent = s.env.sent ++ [f] := by
  cases exec_cases h with
  | await f _ _ he => exact ⟨rfl, rfl, f, he, rfl⟩
  | finish f _ _ he => exact ⟨rfl, rfl, f, he, rfl⟩
  | _ => simp_all

theorem timedOut_keeps_sent (s : State) : (timedOut s).env.sent = s.env.sent := by
  unfold timedOut
  split <;> simp

/-- The receive loop transmits nothing. -/
theorem receive_keeps_sent (h : receive s = .next t) : t.env.sent = s.env.sent := by
  cases receive_cases h with
  | silent s1 hr =>
    obtain ⟨rx, tail, rfl⟩ := state_of_rxRead hr
    exact timedOut_keeps_sent _
  | more b s1 P' hr | failed b s1 P' hr | found b s1 P' hr | replied b s1 P' d hr =>
    obtain ⟨rx, tail, rfl⟩ := state_of_rxRead hr
    simp

/-- A turn of SCAN's loop transmits the PING it has put into TXBUF, or nothing (R146). -/
theorem scanTurn_sends (h : scanTurn s = .next t) : t.env.sent = s.env.sent ∨ TransmitsTxbuf s t := by
  cases scanTurn_cases h with
  | ping f hf =>
    have hlen : f.length ≤ Config.txCapacity := by simp [hf, Config.txCapacity]
    refine .inr ⟨f, ?_, rfl⟩
    simp only [txFrame, launch_D_txbuf, launch_D_txlen, txlen_toNat hlen]
    exact Buffer.load_store _ hlen
  | refused k => exact .inl rfl

/-- Settles O43: in phase TX the instruction is read from TXBUF, and its encoding is the bytes it was read from. -/
theorem onlyTxTransmitsAndTransmitsTxbuf : Obligations.OnlyTxTransmitsAndTransmitsTxbuf := by
  intro s t h
  obtain ⟨es, hn⟩ := step_cases h
  cases hn with
  | host _ r he => exact .inl (exec_keeps_sent (decodeRequest_isFrame r) he :)
  | frame _ f i hp hf hd he =>
    obtain ⟨hframe, -, hencode⟩ := decodedFrameReencodes s.params f i hd
    obtain ⟨hbuf, hlen, g, hg, hsent⟩ := exec_frame_sends hframe he
    cases hencode.symm.trans hg
    exact .inr ⟨.inl ⟨hp, hbuf, hlen⟩, f, by rw [hbuf, hlen]; exact hf, hsent⟩
  | reset => exact .inl rfl
  | receive _ _ hr => exact .inl (receive_keeps_sent hr :)
  | scan _ hp hs => exact (scanTurn_sends hs).imp_right fun hsent => ⟨.inr hp, hsent⟩
  | wait => exact .inl rfl

end

end Sys2Proof.Machine

namespace Sys2Proof.Machine

/-! ### The host's schedule is read by the fetch alone (R36, R173; log 4) -/

/-- The state with another schedule of the host, the model's own field (log 4). -/
def State.withHost (es : List HostEvent) (s : State) : State :=
  { s with env := { s.env with host := es } }

@[simp] theorem withHost_params (es : List HostEvent) (s : State) : (s.withHost es).params = s.params := rfl
@[simp] theorem withHost_P (es : List HostEvent) (s : State) : (s.withHost es).P = s.P := rfl
@[simp] theorem withHost_D (es : List HostEvent) (s : State) : (s.withHost es).D = s.D := rfl

section
variable {s t : State} (es : List HostEvent)

@[simp] theorem succeed_withHost (c : ErrorCode) (d : Data) (s : State) :
    succeed c d (s.withHost es) = (succeed c d s).withHost es := rfl

@[simp] theorem busError_withHost (c : ErrorCode) (s : State) :
    busError c (s.withHost es) = (busError c s).withHost es := rfl

/-- The core's own next step does not look at the host. -/
theorem coreTurn_withHost (s : State) : coreTurn (s.withHost es) = coreTurn s := rfl

theorem transmit_withHost {id : Byte} {c : Cmd} {payload : List Byte} {reply : Bool}
    (h : transmit id c payload reply s = .next t) :
    transmit id c payload reply (s.withHost es) = .next (t.withHost es) := by
  obtain ⟨hp, ⟨rfl, rfl⟩ | ⟨rfl, rfl⟩⟩ := transmit_next h
  · exact if_pos hp
  · exact if_pos hp

/-- A command frame does the same whatever the host has scheduled. -/
theorem exec_frame_withHost {i : Instr} (hi : i.isFrame = true) (h : exec i s = .next t) :
    exec i (s.withHost es) = .next (t.withHost es) := by
  cases i with
  | cmdPing | cmdRead | cmdWrite | cmdRegWrite | cmdAction | cmdReset | cmdSyncWrite =>
    exact transmit_withHost es h
  | _ => cases hi

theorem scanTurn_withHost (h : scanTurn s = .next t) : scanTurn (s.withHost es) = .next (t.withHost es) := by
  cases he : encodeCommand s.params s.D.scanId .ping [] with
  | ok f =>
    rw [scanTurn_of_ok he] at h
    cases h
    exact scanTurn_of_ok (s := s.withHost es) he
  | error k =>
    rw [scanTurn_of_error he] at h
    cases h
    exact scanTurn_of_error (s := s.withHost es) he

theorem scanNext_withHost (s : State) : scanNext (s.withHost es) = (scanNext s).withHost es := by
  by_cases hlt : s.D.scanId.toNat < s.D.scanEnd.toNat
  · rw [scanNext_of_lt hlt]
    exact scanNext_of_lt (s := s.withHost es) hlt
  · rw [scanNext_of_le (Nat.not_lt.mp hlt)]
    exact scanNext_of_le (s := s.withHost es) (Nat.not_lt.mp hlt)

@[simp] theorem scanResolved_withHost (found : Bool) (s : State) :
    scanResolved found (s.withHost es) = (scanResolved found s).withHost es :=
  scanNext_withHost es (scanLogged found s)

theorem timedOut_withHost (s : State) : timedOut (s.withHost es) = (timedOut s).withHost es := by
  cases ha : s.D.activity <;> simp [timedOut, ha]

theorem replied_withHost (h : replied s = .next t) : replied (s.withHost es) = .next (t.withHost es) := by
  unfold replied at h ⊢
  rw [withHost_D, withHost_P]
  cases ha : s.D.activity with
  | read =>
    cases hl : payloadOf s.P with
    | ok bs => simp only [ha, hl] at h; cases h; rfl
    | error f => simp [ha, hl] at h
  | _ => simp only [ha] at h; cases h; simp

theorem afterByte_withHost (h : afterByte s = .next t) : afterByte (s.withHost es) = .next (t.withHost es) := by
  unfold afterByte at h ⊢
  rw [withHost_P]
  cases ho : outcome s.P with
  | notDone => simp only [ho] at h; cases h; rfl
  | failed c => simp only [ho] at h; cases h; rfl
  | complete =>
    simp only [ho] at h ⊢
    split_ifs at h ⊢
    · exact replied_withHost es h
    · cases h; rfl

/-- The transport's answer does not depend on the host, and a read leaves the host alone. -/
theorem rxRead_withHost {s1 : State} {a : Option Byte} (h : rxRead s = (a, s1)) :
    rxRead (s.withHost es) = (a, s1.withHost es) := by
  cases hr : s.env.rx with
  | cons b rest =>
    rw [rxRead_cons hr] at h
    cases h
    exact rxRead_cons (s := s.withHost es) hr
  | nil =>
    unfold rxRead at h ⊢
    simp only [State.withHost, hr] at h ⊢
    cases ht : s.env.rxTail with
    | repeating pattern =>
      cases pattern with
      | nil => simp only [ht] at h ⊢; cases h; simp [hr, ht]
      | cons => simp only [ht] at h ⊢; cases h; rfl
    | oracle n => simp only [ht] at h ⊢; cases h; rfl

/-- One iteration of the receive loop does the same whatever the host has scheduled. -/
theorem receive_withHost (h : receive s = .next t) : receive (s.withHost es) = .next (t.withHost es) := by
  cases hr : rxRead s with
  | mk a s1 =>
    rw [receive, hr] at h
    rw [receive, rxRead_withHost es hr]
    cases a with
    | none => cases h; exact congrArg _ (timedOut_withHost es s1)
    | some b =>
      dsimp only at h ⊢
      cases hs : pstep s1.params s1.P b with
      | ok P' =>
        simp only [hs] at h
        simp only [withHost_params, withHost_P, hs]
        exact afterByte_withHost es h
      | error f => simp [hs] at h

/-! ### Where a step takes its instruction from (R48, R49, R123, R124, R156) -/

/-- Without a host the fetch is the core's own. -/
theorem fetch_hostless (hh : s.env.host = []) :
    fetch s = (coreTurn s).map fun u => (u, s) := by
  unfold fetch
  rw [hh]
  dsimp only
  split <;> simp [*, Except.map]

/-- While the host's next act is due later the fetch is the core's own, and the count falls by one. -/
theorem fetch_later {n : Nat} {act : HostAct} {rest : List HostEvent}
    (hh : s.env.host = ⟨some (n + 1), act⟩ :: rest) :
    fetch s = (coreTurn s).map fun u => (u, s.withHost (⟨some n, act⟩ :: rest)) := by
  unfold fetch
  rw [hh, ← coreTurn_withHost (⟨some n, act⟩ :: rest) s]
  dsimp only [State.withHost]
  split <;> simp [*, Except.map]

end

/-- A step of the core's own is the same step under any schedule that lets the core go on. -/
theorem step_withHost {s t s' : State} {es : List HostEvent} (hs : fetch s = (coreTurn s).map fun u => (u, s))
    (hs' : fetch s' = (coreTurn s).map fun u => (u, s.withHost es)) (h : step s = .next t) :
    step s' = .next (t.withHost es) := by
  cases hc : coreTurn s with
  | error f => simp [step, hs, hc, Except.map] at h
  | ok u =>
    rw [hc] at hs hs'
    cases u with
    | run c =>
      obtain ⟨f, rfl, -⟩ := coreTurn_run hc
      cases hd : decodeFrame s.params f with
      | error e => simp [step, hs, Except.map, decode, hd] at h
      | ok i =>
        obtain ⟨hframe, -⟩ := decodedFrameReencodes s.params f i hd
        rw [step_run hs hd] at h
        rw [step_run (i := i) hs' hd]
        exact exec_frame_withHost es hframe h
    | reset => exact absurd hc (coreTurn_ne_reset s)
    | receive =>
      rw [step_receive hs] at h
      rw [step_receive hs']
      exact receive_withHost es h
    | scan =>
      rw [step_scan hs] at h
      rw [step_scan hs']
      exact scanTurn_withHost es h
    | wait =>
      rw [step_wait hs] at h
      rw [step_wait hs']
      cases h
      rfl

/-- Settles O5: the fetch by the head of the schedule and the phase, and a later act changes nothing but the count. -/
theorem stepTakesItsInstruction : Obligations.StepTakesItsInstruction := by
  refine ⟨fun s r rest hp hh => ?_, fun s r rest hh => ?_, fun s f i hp hh hf hd => ?_, fun s hp hh => ?_,
    fun s t n act rest hh h => ?_⟩
  · exact step_run (fetch_request hp hh) rfl
  · exact step_run (fetch_due hh) rfl
  · exact step_run (fetch_tx hp hh hf) hd
  · refine step_wait ?_
    rw [fetch_hostless hh]
    simp [coreTurn, hp, Except.map]
  · exact step_withHost (s := s.withHost []) (fetch_hostless rfl) (fetch_later hh) h

end Sys2Proof.Machine

namespace Sys2Proof

/-! ### A request decodes to the operation it was encoded from (R84, R85) -/

/-- Every operation of the host has a selector of its own, and its operands stand in the fields it is read from. -/
theorem decodeRequest_of_encode {p : Params} {i : Instr} {r : Request} (h : encode p i = .request r) :
    decodeRequest r = i := by
  cases i with
  | cmdPing | cmdRead | cmdWrite | cmdRegWrite | cmdAction | cmdReset | cmdSyncWrite => cases h
  | _ => cases h; rfl

/-- Settles O1: by the format of the encoding, a request read field by field or a frame the block builds. -/
theorem decodeEncodeRoundTrip : Obligations.DecodeEncodeRoundTrip := by
  intro p i hp hw
  cases he : encode p i with
  | request r => exact congrArg Except.ok (decodeRequest_of_encode he)
  | frame f => exact decodeFrame_of_encode hp hw he

/-- Settles O3: each word is decoded by evaluation. -/
theorem writtenWordsDecode : Obligations.WrittenWordsDecode :=
  ⟨rfl, rfl, rfl, rfl, rfl, rfl⟩

end Sys2Proof

namespace Sys2Proof.Machine

/-! ### The reserved selectors (R89) -/

/-- Settles O6: each of the 32 selectors decodes to its own operation, and both sides name the same fifteen. -/
theorem reservedSelectorsDecodeToReserved : Obligations.ReservedSelectorsDecodeToReserved := by
  intro r
  have h : r.op.toNat < 32 := r.op.isLt
  unfold decodeRequest
  generalize r.op.toNat = n at h
  interval_cases n <;> simp [reservedInstrs]

/-- Every reserved selector runs the one shared operation. -/
theorem exec_reserved {i : Instr} (h : i ∈ reservedInstrs) (s : State) : exec i s = illegalOp s := by
  cases i with
  | reserved06 | reserved07 | reserved0b | reserved0c | reserved0d | reserved0e | reserved0f | reserved18
  | reserved19 | reserved1a | reserved1b | reserved1c | reserved1d | reserved1e | reserved1f => rfl
  | _ => simp [reservedInstrs] at h

/-- Settles O33: in IDLE the shared operation of the reserved selectors raises the fault. -/
theorem reservedSelectorsRaiseIllegalOp : Obligations.ReservedSelectorsRaiseIllegalOp :=
  fun s _ hp hi => (exec_reserved hi s).trans (illegalOp_idle hp)

/-! ### The statements' frames and targets are the encoder's (R45, R65 to R67) -/

theorem frame_eq_buildFrame (id code : Byte) (payload : List Byte) :
    Spec.frame id code payload = buildFrame id code payload := by
  simp only [Spec.frame, Spec.checksum, ← checksumOf_eq]
  rfl

theorem frame_length (id code : Byte) (payload : List Byte) :
    (Spec.frame id code payload).length = payload.length + 6 := by
  rw [frame_eq_buildFrame, buildFrame_length]

theorem target_iff_idInDomain (s : State) (id : Byte) : Spec.Target s id ↔ idInDomain s.params id = true := by
  simp [idInDomain]

/-- ENCODE answers the frame of R65 for a target of the id domain and a payload that fits. -/
theorem encodeCommand_of_target {s : State} {id : Byte} {payload : List Byte} (hid : Spec.Target s id)
    (hl : payload.length ≤ 253) (c : Cmd) :
    encodeCommand s.params id c payload = .ok (Spec.frame id (s.params.code c) payload) :=
  encodeCommand_ok_iff.mpr ⟨(target_iff_idInDomain s id).mp hid, hl, frame_eq_buildFrame ..⟩

/-! ### ENCODE (R85, R97) -/

/-- Each selector of R85's table names the command whose code byte stands beside it. -/
theorem cmdOfSelector_of_table {p : Params} {cmd : BitVec 3} {code : Byte}
    (h : (cmd, code) ∈ [((0 : BitVec 3), p.cmdPing), (1, p.cmdRead), (2, 0x03), (3, p.cmdRegWrite),
      (4, p.cmdAction), (5, p.cmdReset), (6, p.cmdSyncWrite)]) :
    ∃ c, cmdOfSelector cmd = some c ∧ p.code c = code := by
  simp only [List.mem_cons, Prod.mk.injEq, List.not_mem_nil, or_false] at h
  rcases h with ⟨rfl, rfl⟩ | ⟨rfl, rfl⟩ | ⟨rfl, rfl⟩ | ⟨rfl, rfl⟩ | ⟨rfl, rfl⟩ | ⟨rfl, rfl⟩ | ⟨rfl, rfl⟩
  · exact ⟨.ping, rfl, rfl⟩
  · exact ⟨.read, rfl, rfl⟩
  · exact ⟨.write, rfl, rfl⟩
  · exact ⟨.regWrite, rfl, rfl⟩
  · exact ⟨.action, rfl, rfl⟩
  · exact ⟨.reset, rfl, rfl⟩
  · exact ⟨.syncWrite, rfl, rfl⟩

/-- Settles O15: the selector names a command, and ENCODE leaves that command's frame in TXBUF. -/
theorem encodeCompletes : Obligations.EncodeCompletes := by
  intro s id cmd code payload hp hid hl htable f
  obtain ⟨c, hc, rfl⟩ := cmdOfSelector_of_table htable
  rw [exec_encode_idle hp hc (encodeCommand_of_target hid hl c), ← frame_length id (s.params.code c) payload]
  rfl

/-! ### The start of a dispatcher operation (R97, R124, R125) -/

/-- A dispatcher operation with a target of the id domain and a payload that fits has its frame in TXBUF. -/
theorem startCommand_starts {s : State} {id : Byte} {payload : List Byte} (a : Activity) (c : Cmd)
    (hid : Spec.Target s id) (hl : payload.length ≤ 253) :
    startCommand a id c payload s = .next (Spec.started s a (Spec.frame id (s.params.code c) payload)) := by
  rw [startCommand, encodeCommand_of_target hid hl]
  rfl

/-- A dispatcher operation to BROADCAST_ID needs only a payload that fits. -/
theorem startCommand_broadcast {s : State} {payload : List Byte} (a : Activity) (c : Cmd)
    (hl : payload.length ≤ 253) :
    startCommand a s.params.broadcastId c payload s =
      .next (Spec.started s a (Spec.frame s.params.broadcastId (s.params.code c) payload)) :=
  startCommand_starts a c (.inr rfl) hl

/-- Settles O34: each operation is the start of its command, with a payload of at most 253 bytes. -/
theorem targetedOperationsStart : Obligations.TargetedOperationsStart := by
  intro s id offset count data hp hid
  refine ⟨?_, ?_, ?_, fun hdata => ?_⟩
  · exact (exec_ping_idle hp id).trans (startCommand_starts _ _ hid (by simp))
  · exact (exec_read_idle hp id offset count).trans (startCommand_starts _ _ hid (by simp))
  · exact (exec_resetDevice_idle hp id).trans (startCommand_starts _ _ hid (by simp))
  · have hl : (offset :: data).length ≤ 253 := Nat.succ_le_succ hdata
    exact ⟨(exec_write_idle hp id offset data).trans (startCommand_starts _ _ hid hl),
      (exec_regWrite_idle hp id offset data).trans (startCommand_starts _ _ hid hl)⟩

/-- Settles O36: ACTION is the start of its command to BROADCAST_ID, with an empty payload. -/
theorem actionStarts : Obligations.ActionStarts :=
  fun _ hp => (exec_action_idle hp).trans (startCommand_broadcast _ _ (by simp))

/-! ### SYNC_WRITE's arguments (R78, R141, R144) -/

/-- Of values of one width, at least one, the first has that width. -/
theorem headD_length {values : List (List Byte)} {k : Nat} (hne : values ≠ []) (hk : ∀ v ∈ values, v.length = k) :
    (values.headD []).length = k := by
  obtain ⟨v, vs, rfl⟩ := List.exists_cons_of_ne_nil hne
  exact hk v (List.mem_cons_self ..)

/-- As many values as ids, at least one, all of one width, pass SYNC_WRITE's checks. -/
theorem syncCheck_of_width {ids : List Byte} {values : List (List Byte)} {k : Nat}
    (hlen : ids.length = values.length) (hne : values ≠ []) (hk : ∀ v ∈ values, v.length = k) :
    syncCheck ids values = none := by
  have hids : ids.length ≠ 0 := by simpa [hlen] using hne
  rw [syncCheck, if_neg (not_not.mpr hlen), if_neg hids, headD_length hne hk, if_neg (by simpa using hk)]

/-- Settles O37: the checks pass, and the payload of R78 has `2 + m * (1 + k)` bytes. -/
theorem syncWriteStarts : Obligations.SyncWriteStarts := by
  intro s ids offset values k hp hlen hids hk hl
  have hne : values ≠ [] := by
    rw [← List.length_pos_iff, ← hlen]
    exact List.length_pos_iff.mpr hids
  have hpayload : syncPayload offset ids values =
      offset :: BitVec.ofNat 8 k :: (ids.zip values).flatMap fun e => e.1 :: e.2 := by
    rw [syncPayload, headD_length hne hk]
    rfl
  rw [exec_syncWrite_idle hp offset (syncCheck_of_width hlen hne hk), hpayload]
  refine startCommand_broadcast _ _ ?_
  rw [List.length_cons, List.length_cons, length_flatMap_zip hlen hk]
  omega

/-! ### The transmission of a command frame (R124, R125) -/

/-- In phase TX a frame that awaits a reply is handed over whole, and its reply is awaited with a cleared parser. -/
theorem transmit_awaits {s : State} (hp : s.D.phase = .tx) (id : Byte) (c : Cmd) (payload : List Byte)
    {reply : Bool} (hr : reply = true) :
    transmit id c payload reply s = .next (Spec.awaiting s (Spec.frame id (s.params.code c) payload)) := by
  rw [transmit, if_pos hp, frame_eq_buildFrame]
  exact if_pos hr

/-- In phase TX a frame that awaits no reply is handed over whole and ends its operation. -/
theorem transmit_ends {s : State} (hp : s.D.phase = .tx) (id : Byte) (c : Cmd) (payload : List Byte)
    {reply : Bool} (hr : reply = false) :
    transmit id c payload reply s = .next (Spec.ended
      { s with env := { s.env with sent := s.env.sent ++ [Spec.frame id (s.params.code c) payload] } }
      (.ok .none .empty) []) := by
  rw [transmit, if_pos hp, frame_eq_buildFrame]
  exact if_neg (by simp [hr])

/-- Settles O40: PING and READ always await a reply, the other three when the target is not BROADCAST_ID. -/
theorem addressedFramesAwaitAReply : Obligations.AddressedFramesAwaitAReply := by
  intro s id offset count data hp
  refine ⟨transmit_awaits hp _ _ _ rfl, transmit_awaits hp _ _ _ rfl, fun hid => ?_⟩
  have hreply : (id != s.params.broadcastId) = true := bne_iff_ne.mpr hid
  exact ⟨transmit_awaits hp _ _ _ hreply, transmit_awaits hp _ _ _ hreply, transmit_awaits hp _ _ _ hreply⟩

/-- Settles O41: ACTION and SYNC_WRITE never await a reply, the other three not when they are sent to BROADCAST_ID. -/
theorem broadcastFramesEndTheOperation : Obligations.BroadcastFramesEndTheOperation := by
  intro s offset data ids values hp
  have hreply : (s.params.broadcastId != s.params.broadcastId) = false := bne_self_eq_false _
  exact ⟨transmit_ends hp _ _ _ rfl, transmit_ends hp _ _ _ rfl, transmit_ends hp _ _ _ hreply,
    transmit_ends hp _ _ _ hreply, transmit_ends hp _ _ _ hreply⟩

end Sys2Proof.Machine

namespace Sys2Proof.Machine

/-! ### The parser over a whole frame (R65, R104 to R110) -/

section
variable {p : Params} {P : Parser}

/-- The parser before the checksum byte of a frame: every byte of the body is held, in a register or in PBUF. -/
def Parser.holdingBody (P : Parser) (id code : Byte) (payload : List Byte) : Parser :=
  { P with
    state := .check
    devId := id
    length := BitVec.ofNat 8 (payload.length + 2)
    statusRaw := code
    idx := BitVec.ofNat 8 payload.length
    sum := sum8 (frameBody id code payload)
    pbuf := Buffer.store P.pbuf 0 payload }

/-- A length byte of at least 2 is taken under both policies of R12, and the status byte opens the payload (R107,
R108). -/
theorem feed_header (h : P.state = .id) {length : Byte} (hl : 2 ≤ length.toNat) (id code : Byte) (bs : List Byte) :
    feed p P (id :: length :: code :: bs) = feed p { P with
      devId := id
      length := length
      statusRaw := code
      idx := 0
      sum := id + length + code
      state := if length.toNat - 2 = 0 then .check else .payload } bs := by
  have hlen : pstepLen p (pstepId P id) length =
      { P with devId := id, length := length, idx := 0, sum := id + length, state := .status } := by
    simp [pstepLen, pstepId, hl]
  rw [feed_cons_of_ok (pstep_id h), feed_cons_of_ok (pstep_len rfl), hlen, feed_cons_of_ok (pstep_status rfl)]
  rfl

/-- The body of a frame, from the device id through the last payload byte, leads from ID to CHECK. -/
theorem feed_frameBody (h : P.state = .id) (id code : Byte) {payload : List Byte} (hn : payload.length ≤ 253) :
    feed p P (frameBody id code payload) = .ok (P.holdingBody id code payload) := by
  have hlen := lengthByte_toNat hn
  rw [frameBody, List.cons_append, List.cons_append, List.cons_append, List.nil_append,
    feed_header h (by omega), hlen, Nat.add_sub_cancel]
  cases payload with
  | nil => simp [Parser.holdingBody, Buffer.store, frameBody, BitVec.add_assoc]
  | cons b bs =>
    have hdeclared : (0 : Byte).toNat + (b :: bs).length = (b :: bs).length + 2 - 2 := Nat.zero_add _
    rw [feed_payload (by simp) (by simp only [npay, hlen, hdeclared, le_refl]) (by simp)]
    simp only [npay, hlen, hdeclared, if_true]
    simp [Parser.holdingBody, frameBody, BitVec.add_assoc]

/-- A whole frame with the right checksum leads from SEEK1 to COMPLETE, whatever its code byte resolves to (R110). -/
theorem feed_buildFrame (h : P.state = .seek1) (id code : Byte) {payload : List Byte} (hn : payload.length ≤ 253) :
    feed p P (buildFrame id code payload) = .ok { P.holdingBody id code payload with
      state := .complete, code := resolve p code, sum := 0xFF } := by
  have hbody : feed p { P with state := .id } (frameBody id code payload) = .ok (P.holdingBody id code payload) :=
    feed_frameBody rfl id code hn
  have hsum : sum8 (frameBody id code payload) + checksumOf (frameBody id code payload) = 0xFF :=
    (sum8_add_eq_ff _ _).mpr rfl
  have hcheck : pstepCheck p (P.holdingBody id code payload) (checksumOf (frameBody id code payload)) =
      { P.holdingBody id code payload with state := .complete, code := resolve p code, sum := 0xFF } := by
    simp only [pstepCheck, Parser.holdingBody, hsum, if_true]
  rw [buildFrame, List.append_assoc, List.cons_append, List.cons_append, List.nil_append, feed_preamble h,
    feed_append_of_ok hbody, feed_cons_of_ok (pstep_check rfl), hcheck, feed_nil]

/-- GET_PAYLOAD on a complete parser that has stored a payload gives that payload (R121). -/
theorem exec_getPayload_stored {s : State} {m : Buffer} {payload : List Byte} (hp : s.D.phase = .idle)
    (hc : s.P.state = .complete) (hidx : s.P.idx = BitVec.ofNat 8 payload.length)
    (hbuf : s.P.pbuf = Buffer.store m 0 payload) (hn : payload.length ≤ 253) :
    exec .getPayload s = .next (succeed .none (.bytes payload) s) := by
  have hlen : s.P.idx.toNat = payload.length := by rw [hidx, BitVec.toNat_ofNat]; omega
  rw [exec_getPayload_complete hp hc (hlen.trans_le hn), hlen, hbuf, Buffer.slice_store]

end

/-- Settles O31: `feed_buildFrame` gives the complete parser, and `feed_take` every shorter beginning. -/
theorem encodeParseRoundTrip : Obligations.EncodeParseRoundTrip := by
  intro p P id c payload f hf hst
  obtain ⟨-, hn, rfl⟩ := encodeCommand_ok_iff.mp hf
  have hfeed := feed_buildFrame (p := p) hst id (p.code c) hn
  refine ⟨⟨_, hfeed, rfl, rfl, rfl, rfl, fun s hp hP => ?_⟩, fun n hlt => feed_take hfeed hlt⟩
  exact exec_getPayload_stored (m := P.pbuf) hp (by rw [hP]) (by rw [hP]; rfl) (by rw [hP]; rfl) hn

/-! ### CHECKSUM and the whole-frame sum (R93 to R95) -/

/-- Settles O11: the checksum in the form of R67 and R93. -/
theorem checksumCompletes : Obligations.ChecksumCompletes := by
  intro s bytes hp
  rw [exec_checksum_idle hp, checksumOf_eq]
  rfl

/-- Settles O12: 255 is the byte of all ones, so nothing is borrowed. -/
theorem checksumIsComplement : Obligations.ChecksumIsComplement := by
  have hnot (s : Byte) : (255 : Byte) - s = ~~~s := BitVec.allOnes_sub_eq_not s
  refine ⟨fun s => ⟨hnot s, ?_⟩, fun bytes => hnot (sum8 bytes)⟩
  rw [hnot, BitVec.toNat_not]

/-- A byte is the checksum exactly when it has the value R67 gives. -/
theorem eq_checksumOf_iff (body : List Byte) (c : Byte) :
    c = checksumOf body ↔ c.toNat = 255 - (body.map BitVec.toNat).sum % 256 := by
  rw [← checksumOf_toNat, BitVec.toNat_inj]

/-- Settles O13: the sum is 0xFF exactly for the checksum byte, by `sum8_add_eq_ff`. -/
theorem wholeFrameSum : Obligations.WholeFrameSum := by
  intro id code c payload _ body
  refine ⟨?_, eq_checksumOf_iff body c⟩
  have hdrop : sum8 ((0xFF :: 0xFF :: body ++ [c]).drop 2) = sum8 body + c := by simp
  rw [hdrop, sum8_add_eq_ff, eq_checksumOf_iff]

/-! ### VALIDATE, and the shape of an encoded frame (R96, R99) -/

theorem sum8_eq_ff_iff (bs : List Byte) : sum8 bs = 0xFF ↔ (bs.map BitVec.toNat).sum % 256 = 255 := by
  rw [← sum8_toNat, ← BitVec.toNat_inj]
  rfl

/-- VALIDATE's test in the terms of R96. -/
theorem validFrame_iff (f : List Byte) :
    validFrame f = true ↔ 6 ≤ f.length ∧ f[0]? = some 0xFF ∧ f[1]? = some 0xFF ∧
      (f[3]?).map BitVec.toNat = some (f.length - 4) ∧ sum8 (f.drop 2) = 0xFF := by
  match f with
  | m1 :: m2 :: id :: length :: rest => simp [validFrame, Config.marker, and_assoc]
  | [] | [_] | [_, _] | [_, _, _] => simp [validFrame]

/-- Settles O14: the result is `validFrame`, which `validFrame_iff` reads as R96's five tests. -/
theorem validateCompletes : Obligations.ValidateCompletes := fun s f hp =>
  ⟨validFrame f, exec_validate_idle hp f, by rw [validFrame_iff, sum8_eq_ff_iff]⟩

/-- Settles O17: the frame is `buildFrame`, and with R99's properties it passes the tests of `validFrame_iff`. -/
theorem encodedFramesAreWellShaped : Obligations.EncodedFramesAreWellShaped := by
  intro p id c payload f hf
  obtain ⟨-, hn, rfl⟩ := encodeCommand_ok_iff.mp hf
  have hlen := buildFrame_length id (p.code c) payload
  have hsum := sum8_buildFrame id (p.code c) payload
  have hlbyte : ((buildFrame id (p.code c) payload)[3]?).map BitVec.toNat = some (payload.length + 2) :=
    congrArg some (lengthByte_toNat hn)
  refine ⟨hlen, rfl, rfl, hlbyte, hsum, (validFrame_iff _).mpr ⟨?_, rfl, rfl, ?_, hsum⟩⟩
  · omega
  · rw [hlbyte, hlen]; rfl

/-! ### ENCODE's errors (R97, R98) -/

theorem encodeCommand_of_not_target {s : State} {id : Byte} (hid : ¬ Spec.Target s id) (c : Cmd)
    (payload : List Byte) : encodeCommand s.params id c payload = .error .id := by
  rw [target_iff_idInDomain] at hid
  simp [encodeCommand, hid]

theorem encodeCommand_of_tooLong {s : State} {id : Byte} {payload : List Byte} (hid : Spec.Target s id)
    (hl : 253 < payload.length) (c : Cmd) : encodeCommand s.params id c payload = .error .tooLong := by
  rw [target_iff_idInDomain] at hid
  simp [encodeCommand, hid, maxPayload, hl]

/-- Every selector but 7 names a command (R85). -/
theorem cmdOfSelector_of_ne {cmd : BitVec 3} (h : cmd ≠ 7) : ∃ c, cmdOfSelector cmd = some c := by
  have hlt : cmd.toNat < Cmd.all.length := by
    have h8 : cmd.toNat < 8 := cmd.isLt
    have h7 : cmd.toNat ≠ 7 := fun h7 => h (BitVec.eq_of_toNat_eq h7)
    show cmd.toNat < 7
    omega
  exact ⟨Cmd.all[cmd.toNat], List.getElem?_eq_getElem hlt⟩

/-- ENCODE of a command raises the error its computation answers. -/
theorem exec_encode_refused {s : State} (hp : s.D.phase = .idle) {id : Byte} {cmd : BitVec 3} {payload : List Byte}
    (hcmd : cmd ≠ 7) {k : ValidationKind} (hk : ∀ c, encodeCommand s.params id c payload = .error k) :
    exec (.encodeOp id cmd payload) s = .next (raise (.validation k) s) := by
  obtain ⟨c, hc⟩ := cmdOfSelector_of_ne hcmd
  simp only [exec, execEncode, accept_idle hp, hc, hk]

/-- Settles O16: the reserved selector names no command; the others leave the checks to `encodeCommand`. -/
theorem encodeReportsTheFirstError : Obligations.EncodeReportsTheFirstError := by
  intro s id cmd payload hp
  refine ⟨?_, fun hcmd hid => ?_, fun hcmd hid hl => ?_⟩
  · rintro rfl
    simp only [exec, execEncode, accept_idle hp]
    rfl
  · exact exec_encode_refused hp hcmd fun c => encodeCommand_of_not_target hid c payload
  · exact exec_encode_refused hp hcmd fun c => encodeCommand_of_tooLong hid hl c

/-! ### The errors that end a dispatcher operation at once (R97, R133, R157) -/

/-- A dispatcher operation ends in the error ENCODE's computation answers. -/
theorem startCommand_refused {s : State} {id : Byte} {c : Cmd} {payload : List Byte} {k : ValidationKind}
    (a : Activity) (hk : encodeCommand s.params id c payload = .error k) :
    startCommand a id c payload s = .next (Spec.ended s (.error (.validation k)) []) := by
  rw [startCommand, hk]
  rfl

/-- Settles O35: each operation is the start of its command, whose payload has one byte more than the data. -/
theorem targetedOperationsValidate : Obligations.TargetedOperationsValidate := by
  intro s id offset count data hp
  constructor
  · intro hid i hi
    have hstart (a : Activity) (c : Cmd) (payload : List Byte) :=
      startCommand_refused a (encodeCommand_of_not_target hid c payload)
    simp only [List.mem_cons, List.not_mem_nil, or_false] at hi
    rcases hi with rfl | rfl | rfl | rfl | rfl
    · exact (exec_ping_idle hp id).trans (hstart ..)
    · exact (exec_read_idle hp id offset count).trans (hstart ..)
    · exact (exec_write_idle hp id offset data).trans (hstart ..)
    · exact (exec_regWrite_idle hp id offset data).trans (hstart ..)
    · exact (exec_resetDevice_idle hp id).trans (hstart ..)
  · intro hid hdata i hi
    have hl : 253 < (offset :: data).length := Nat.succ_lt_succ hdata
    have hstart (a : Activity) (c : Cmd) := startCommand_refused a (encodeCommand_of_tooLong hid hl c)
    simp only [List.mem_cons, List.not_mem_nil, or_false] at hi
    rcases hi with rfl | rfl
    · exact (exec_write_idle hp id offset data).trans (hstart ..)
    · exact (exec_regWrite_idle hp id offset data).trans (hstart ..)

end Sys2Proof.Machine

namespace Sys2Proof.Machine

/-! ### What always answers a next state (R103, R111, R123, R124) -/

section
variable {s t : State}

/-- An operation is answered in every phase if it is in IDLE: F_BUSY is an answer too (R123). -/
theorem accept_answers {op : State → StepOutcome} (h : s.D.phase = .idle → ∃ t, op s = .next t) :
    ∃ t, accept s op = .next t := by
  by_cases hp : s.D.phase = .idle
  · rw [accept_idle hp]; exact h hp
  · exact ⟨_, accept_busy hp op⟩

/-- An accessor is answered in every state if it is in COMPLETE. -/
theorem whenComplete_answers {op : State → StepOutcome} (h : s.P.state = .complete → ∃ t, op s = .next t) :
    ∃ t, whenComplete s op = .next t := by
  refine accept_answers fun hp => ?_
  by_cases hc : s.P.state = .complete
  · simpa [Parser.isComplete, hc] using h hc
  · simp [Parser.isComplete, hc]

theorem startCommand_answers (a : Activity) (id : Byte) (c : Cmd) (payload : List Byte) (s : State) :
    ∃ t, startCommand a id c payload s = .next t := by
  rcases startCommand_cases a id c payload s with ⟨f, -, h⟩ | ⟨k, -, h⟩
  · exact ⟨_, h⟩
  · exact ⟨_, h⟩

theorem scanTurn_answers (s : State) : ∃ t, scanTurn s = .next t := by
  cases he : encodeCommand s.params s.D.scanId .ping [] with
  | ok f => exact ⟨_, scanTurn_of_ok he⟩
  | error k => exact ⟨_, scanTurn_of_error he⟩

theorem transmit_answers (hp : s.D.phase = .tx) (id : Byte) (c : Cmd) (payload : List Byte) (reply : Bool) :
    ∃ t, transmit id c payload reply s = .next t := by
  cases reply with
  | true => exact ⟨_, transmit_awaits hp id c payload rfl⟩
  | false => exact ⟨_, transmit_ends hp id c payload rfl⟩

/-! ### The index of PBUF under the parser's invariant (R13, R28) -/

/-- A parser that is not terminal takes every byte: in PAYLOAD its index lies inside PBUF. -/
theorem ParserInv.takes_byte {p : Params} {P : Parser} (h : ParserInv p P) (hd : P.done = false) (b : Byte) :
    ∃ P', Sys2Proof.Machine.pstep p P b = .ok P' := by
  refine pstep_total hd fun hst => ?_
  obtain ⟨-, hidx, -⟩ : P.code = .notDone ∧ P.idx.toNat < npay P ∧ P.sum = heldSum P := by
    simpa only [ParserRegs, hst] using h.2
  exact hidx.trans_le (npay_le P)

/-- A complete parser has stored no more bytes than PBUF holds, so its payload can be read. -/
theorem ParserInv.payloadOf {p : Params} {P : Parser} (h : ParserInv p P) (hst : P.state = .complete) :
    Sys2Proof.Machine.payloadOf P = .ok (Buffer.slice P.pbuf 0 P.idx.toNat) := by
  obtain ⟨-, hidx, -⟩ : P.code = resolve p P.statusRaw ∧ P.idx.toNat = npay P ∧ P.sum = 0xFF := by
    simpa only [ParserRegs, hst] using h.2
  exact Buffer.load_ok _ (hidx.trans_le (npay_le P))

/-! ### The instructions -/

theorem execProcessByte_answers (h : ParserInv s.params s.P) (b : Byte) : ∃ t, execProcessByte b s = .next t := by
  refine accept_answers fun _ => ?_
  cases hd : s.P.done with
  | true => exact ⟨_, if_pos rfl⟩
  | false =>
    obtain ⟨P', hs⟩ := h.takes_byte hd b
    simp [hs]

theorem execEncode_answers (id : Byte) (cmd : BitVec 3) (payload : List Byte) (s : State) :
    ∃ t, execEncode id cmd payload s = .next t := by
  refine accept_answers fun _ => ?_
  cases cmdOfSelector cmd with
  | none => exact ⟨_, rfl⟩
  | some c =>
    cases he : encodeCommand s.params id c payload with
    | error k => simp [he]
    | ok f => simp [he]

theorem execSyncWrite_answers (ids : List Byte) (offset : Byte) (values : List (List Byte)) (s : State) :
    ∃ t, execSyncWrite ids offset values s = .next t := by
  refine accept_answers fun _ => ?_
  cases syncCheck ids values with
  | some k => exact ⟨_, rfl⟩
  | none => exact startCommand_answers ..

/-- Every operation of the host is answered in every phase, the parser meeting its invariant. -/
theorem exec_request_answers (h : ParserInv s.params s.P) {i : Instr} (hi : i.isFrame = false) :
    ∃ t, exec i s = .next t := by
  cases i with
  | cmdPing | cmdRead | cmdWrite | cmdRegWrite | cmdAction | cmdReset | cmdSyncWrite => cases hi
  | processByte b => exact execProcessByte_answers h b
  | getDeviceId | getErrorCode | getStatusRaw =>
    simp only [exec]
    exact whenComplete_answers fun _ => ⟨_, rfl⟩
  | getPayload =>
    simp only [exec]
    refine whenComplete_answers fun hst => ?_
    simp [h.payloadOf hst]
  | encodeOp id cmd payload => exact execEncode_answers ..
  | ping | read | write | regWrite | resetDevice | action =>
    exact accept_answers fun _ => startCommand_answers ..
  | syncWrite ids offset values => exact execSyncWrite_answers ..
  | parserClear | checksum | validate | scan =>
    simp only [exec]
    exact accept_answers fun _ => ⟨_, rfl⟩
  | _ => exact illegalOp_next s

/-- Every command frame is answered in phase TX. -/
theorem exec_frame_answers (hp : s.D.phase = .tx) {i : Instr} (hi : i.isFrame = true) :
    ∃ t, exec i s = .next t := by
  cases i with
  | cmdPing | cmdRead | cmdWrite | cmdRegWrite | cmdAction | cmdReset | cmdSyncWrite =>
    exact transmit_answers hp ..
  | _ => cases hi

/-! ### The receive loop -/

theorem state_of_outcome_complete {P : Parser} (h : outcome P = .complete) : P.state = .complete := by
  cases hst : P.state with
  | complete => rfl
  | _ => simp [outcome, hst] at h

/-- A complete reply of status NONE ends its operation, READ's with the payload the parser holds. -/
theorem replied_answers (h : ParserInv s.params s.P) (hst : s.P.state = .complete) : ∃ t, replied s = .next t := by
  have hload := h.payloadOf hst
  cases ha : s.D.activity with
  | _ => simp [replied, ha, hload]

theorem afterByte_answers (h : ParserInv s.params s.P) : ∃ t, afterByte s = .next t := by
  unfold afterByte
  cases ho : outcome s.P with
  | notDone => exact ⟨_, rfl⟩
  | failed c => exact ⟨_, rfl⟩
  | complete =>
    by_cases hc : s.P.code = .none
    · simpa [hc] using replied_answers h (state_of_outcome_complete ho)
    · simp [hc]

theorem receive_answers (h : Inv s) (hp : s.D.phase = .rx) : ∃ t, receive s = .next t := by
  cases hr : rxRead s with
  | mk a s1 =>
    obtain ⟨h1, hD⟩ := h.of_rxRead hr
    have hp1 : s1.D.phase = .rx := by rw [hD, hp]
    cases a with
    | none => exact ⟨timedOut s1, by simp [receive, hr]⟩
    | some b =>
      obtain ⟨P', hs⟩ := h1.parser.takes_byte (h1.phase_rx hp1).1 b
      obtain ⟨t, ht⟩ := afterByte_answers (s := { s1 with P := P' }) (h1.parser.pstep hs)
      exact ⟨t, by simp [receive, hr, hs, ht]⟩

/-! ### The fetch and the step -/

/-- The fetch answers when the core has a next step of its own. -/
theorem fetch_of_coreTurn {u : Turn} (h : coreTurn s = .ok u) : ∃ v t, fetch s = .ok (v, t) := by
  match he : s.env.host with
  | [] => exact ⟨u, s, by rw [fetch_hostless he, h]; rfl⟩
  | ⟨none, act⟩ :: rest =>
    by_cases hp : s.D.phase = .idle
    · simp [fetch, he, hp]
    · simp [fetch, he, hp, h]
  | ⟨some 0, act⟩ :: rest => exact ⟨_, _, fetch_due he⟩
  | ⟨some (n + 1), act⟩ :: rest => exact ⟨u, _, by rw [fetch_later he, h]; rfl⟩

/-- What the invariant says in phase TX: TXBUF holds a command frame. -/
theorem Inv.phase_tx (h : Inv s) (hp : s.D.phase = .tx) :
    ∃ f i, txFrame s = .ok f ∧ decodeFrame s.params f = .ok i ∧ i.isFrame = true := by
  obtain ⟨f, i, hf, hd, -⟩ : ∃ f i, txFrame s = .ok f ∧ decodeFrame s.params f = .ok i ∧
      Carries s.D.activity i := by
    simpa only [PhaseInv, hp, txFrame] using h.phase
  exact ⟨f, i, hf, hd, (decodedFrameReencodes s.params f i hd).1⟩

/-- The core has a next step of its own in every phase. -/
theorem Inv.coreTurn (h : Inv s) : ∃ u, coreTurn s = .ok u := by
  unfold Sys2Proof.Machine.coreTurn
  cases hp : s.D.phase with
  | tx =>
    obtain ⟨f, i, hf, -⟩ := h.phase_tx hp
    simp [hf]
  | _ => exact ⟨_, rfl⟩

/-- An act of the host is answered in every state of the invariant, `t` being the state after the fetch. -/
theorem step_host_answers {act : HostAct} (ht : Inv t) (hf : fetch s = .ok (hostTurn act, t)) :
    ∃ v, step s = .next v := by
  cases act with
  | op r => rw [step_run hf rfl]; exact exec_request_answers ht.parser (decodeRequest_isFrame r)
  | rst => exact ⟨_, step_reset hf⟩

end

/-- Settles O60: the fetch answers an act of the host or the core's own turn, and each is answered. -/
theorem invariantStatesAlwaysStep : Obligations.InvariantStatesAlwaysStep := by
  intro s h
  obtain ⟨own, hown⟩ := h.coreTurn
  obtain ⟨u, t, hf⟩ := fetch_of_coreTurn hown
  obtain ⟨es, rfl⟩ := fetch_frame hf
  have ht := h.withEnv { s.env with host := es }
  rcases fetch_turn hf with ⟨act, rfl⟩ | hc
  · exact step_host_answers ht hf
  · cases u with
    | run c =>
      obtain ⟨f, rfl, hp, hx⟩ := coreTurn_run hc
      obtain ⟨f', i, hx', hd, hi⟩ := h.phase_tx hp
      cases hx.symm.trans hx'
      rw [step_run (i := i) hf hd]
      exact exec_frame_answers (s := s.withHost es) hp hi
    | reset => exact absurd hc (coreTurn_ne_reset s)
    | receive => rw [step_receive hf]; exact receive_answers ht (coreTurn_receive hc)
    | scan => rw [step_scan hf]; exact scanTurn_answers _
    | wait => exact ⟨_, step_wait hf⟩

end Sys2Proof.Machine

namespace Sys2Proof.Machine

/-! ### The next state of the parser, register by register (R104 to R110) -/

section
variable {p : Params} {P P' : Parser} {b : Byte}

theorem pstepSeek1_eq (h : P.state = .seek1) (b : Byte) :
    pstepSeek1 P b = { P with state := if b = 0xFF then .seek2 else .seek1 } := by
  unfold pstepSeek1 Config.marker
  split_ifs
  · rfl
  · rw [← h]

theorem pstepSeek2_eq (h : P.state = .seek2) (p : Params) (b : Byte) :
    pstepSeek2 p P b = { P with state := if b = 0xFF then .id
      else match p.seek2Mismatch with
        | .toSeek1 => .seek1
        | .staySeek2 => .seek2 } := by
  unfold pstepSeek2 Config.marker
  split_ifs
  · rfl
  · cases p.seek2Mismatch with
    | toSeek1 => rfl
    | staySeek2 => exact congrArg (fun st => { P with state := st }) h

/-- A length of at least 2, or any length under ZERO_PAYLOAD, is taken (R107). -/
theorem pstepLen_taken (P : Parser) (hb : 2 ≤ b.toNat ∨ p.shortLengthPolicy = .zeroPayload) :
    pstepLen p P b = { P with length := b, sum := P.sum + b, idx := 0, state := .status } := by
  by_cases h2 : 2 ≤ b.toNat
  · simp [pstepLen, h2]
  · simp [pstepLen, h2, hb.resolve_left h2]

/-- A short length under FAIL_MALFORMED ends the frame (R107). -/
theorem pstepLen_malformed (P : Parser) (hb : b.toNat < 2) (hf : p.shortLengthPolicy = .failMalformed) :
    pstepLen p P b =
      { P with length := b, sum := P.sum + b, idx := 0, code := .malformed, state := .failed } := by
  simp [pstepLen, Nat.not_le.mpr hb, hf]

theorem shortLength_of_not_taken (h : ¬ (2 ≤ b.toNat ∨ p.shortLengthPolicy = .zeroPayload)) :
    b.toNat < 2 ∧ p.shortLengthPolicy = .failMalformed := by
  obtain ⟨hb, hz⟩ := not_or.mp h
  refine ⟨Nat.not_le.mp hb, ?_⟩
  cases hpol : p.shortLengthPolicy with
  | failMalformed => rfl
  | zeroPayload => exact absurd hpol hz

theorem pstepCheck_complete (h : P.sum + b = 0xFF) :
    pstepCheck p P b = { P with sum := 0xFF, code := resolve p P.statusRaw, state := .complete } := by
  simp [pstepCheck, h]

theorem pstepCheck_failed (p : Params) (h : P.sum + b ≠ 0xFF) :
    pstepCheck p P b = { P with sum := P.sum + b, code := .checksum, state := .failed } := by
  unfold pstepCheck
  exact if_neg h

/-- A parser that takes a byte in PAYLOAD has its index inside PBUF. -/
theorem idx_lt_of_pstep_payload (h : P.state = .payload) (hs : pstep p P b = .ok P') : P.idx.toNat < 253 := by
  by_contra hi
  simp [pstep, h, pstepPayload, Config.payloadCapacity, hi] at hs

end

/-- Settles O19: in each state by the equation of its next-state function. -/
theorem parserNextState : Obligations.ParserNextState := by
  intro p P b
  refine ⟨fun hst => ⟨_, pstep_seek1 hst, ?_, pstepSeek1_eq hst b⟩,
    fun hst => ⟨_, pstep_seek2 hst, ?_, pstepSeek2_eq hst p b⟩,
    fun hst => ⟨_, pstep_id hst, rfl, rfl⟩, fun hst => ⟨_, pstep_len hst, ?_⟩,
    fun hst => ⟨_, pstep_status hst, ?_, rfl⟩, fun hst => ⟨_, pstep_check hst, ?_⟩⟩
  · refine outcome_of_not_done ?_
    rw [pstepSeek1_eq hst]
    split_ifs
    · rfl
    · rfl
  · refine outcome_of_not_done ?_
    rw [pstepSeek2_eq hst]
    split_ifs
    · rfl
    · cases p.seek2Mismatch with
      | toSeek1 | staySeek2 => rfl
  · split_ifs with hb
    · rw [pstepLen_taken P hb]
      exact ⟨rfl, rfl⟩
    · obtain ⟨hshort, hf⟩ := shortLength_of_not_taken hb
      rw [pstepLen_malformed P hshort hf]
      exact ⟨rfl, rfl⟩
  · refine outcome_of_not_done ?_
    by_cases hn : npay P = 0
    · simp [pstepStatus, Parser.done, hn]
    · simp [pstepStatus, Parser.done, hn]
  · split_ifs with hb
    · rw [pstepCheck_complete hb]
      exact ⟨rfl, rfl⟩
    · rw [pstepCheck_failed p hb]
      exact ⟨rfl, rfl⟩

/-! ### The parser's operations in IDLE (R103, R114, R119 to R122) -/

section
variable {s : State} {b : Byte}

/-- PROCESS_BYTE with a byte that the parser takes: it answers the parser's code and outcome (R103). -/
theorem exec_processByte_taken (hp : s.D.phase = .idle) {Q : Parser} {o : Outcome}
    (h : ∃ P', pstep s.params s.P b = .ok P' ∧ outcome P' = o ∧ P' = Q) :
    exec (.processByte b) s = .next (Spec.processed s Q o.tag) := by
  obtain ⟨P', hs, rfl, rfl⟩ := h
  exact exec_processByte_idle hp (done_of_pstep hs) hs

theorem whenComplete_of_complete (hp : s.D.phase = .idle) (hc : s.P.state = .complete)
    (op : State → StepOutcome) : whenComplete s op = op s := by
  simp [whenComplete, accept_idle hp, Parser.isComplete, hc]

theorem whenComplete_of_not_complete (hp : s.D.phase = .idle) (hc : s.P.state ≠ .complete)
    (op : State → StepOutcome) : whenComplete s op = .next (raise (.fault .notComplete) s) := by
  simp [whenComplete, accept_idle hp, Parser.isComplete, hc]

end

/-- Settles O18: PARSER_CLEAR gives the cleared parser, whose buffer is the one before. -/
theorem parserClearCompletes : Obligations.ParserClearCompletes :=
  fun _ hp => exec_parserClear_idle hp

/-- Settles O20: PROCESS_BYTE takes the next state of SEEK1 and SEEK2. -/
theorem preambleSearch : Obligations.PreambleSearch := by
  intro s b hp
  obtain ⟨hseek1, hseek2, -⟩ := parserNextState s.params s.P b
  have htaken (hst : s.P.state = .seek2) := exec_processByte_taken hp (hseek2 hst)
  refine ⟨fun hst => exec_processByte_taken hp (hseek1 hst), fun hst hb => ?_, fun hst hb hm => ?_,
    fun hst hb hm => ?_⟩
  · simpa only [if_pos hb, Outcome.tag] using htaken hst
  · simpa only [if_neg hb, hm, Outcome.tag] using htaken hst
  · simpa only [if_neg hb, hm, Outcome.tag] using htaken hst

/-- Settles O21: PROCESS_BYTE takes the next state of ID, LEN and STATUS. -/
theorem headerBytes : Obligations.HeaderBytes := by
  intro s b hp
  obtain ⟨-, -, hid, hlen, hstatus, -⟩ := parserNextState s.params s.P b
  refine ⟨fun hst => exec_processByte_taken hp (hid hst), fun hst hb => ?_, fun hst hb hf => ?_,
    fun hst => exec_processByte_taken hp (hstatus hst)⟩
  · obtain ⟨P', hs, hnext⟩ := hlen hst
    exact exec_processByte_taken hp ⟨P', hs, by simpa only [if_pos hb] using hnext⟩
  · obtain ⟨P', hs, hnext⟩ := hlen hst
    have hshort : ¬ (2 ≤ b.toNat ∨ s.params.shortLengthPolicy = .zeroPayload) := by simp [hf, hb]
    exact exec_processByte_taken hp ⟨P', hs, by simpa only [if_neg hshort] using hnext⟩

/-- Settles O23: PROCESS_BYTE takes the next state of CHECK. -/
theorem checkByte : Obligations.CheckByte := by
  intro s b hp hst
  obtain ⟨-, -, -, -, -, hcheck⟩ := parserNextState s.params s.P b
  obtain ⟨P', hs, hnext⟩ := hcheck hst
  refine ⟨fun hb => ?_, fun hb => ?_⟩
  · exact exec_processByte_taken hp ⟨P', hs, by simpa only [if_pos hb] using hnext⟩
  · exact exec_processByte_taken hp ⟨P', hs, by simpa only [if_neg hb] using hnext⟩

/-- Settles O24: both terminal states are `done`, which PROCESS_BYTE tests before the parser sees the byte. -/
theorem terminalParserTakesNoByte : Obligations.TerminalParserTakesNoByte := by
  intro s b hp hst
  have hd : s.P.done = true := by simpa [Parser.done] using hst
  simp only [exec, execProcessByte, accept_idle hp, hd, if_true]
  rfl

/-- Settles O25: each accessor passes its guard, and a slice is known by its bytes. -/
theorem accessorsInComplete : Obligations.AccessorsInComplete := by
  intro s bs hp hc
  have hguard := whenComplete_of_complete hp hc
  refine ⟨?_, ?_, ?_, fun hcap hlen hget => ?_⟩
  · simp only [exec, execGetDeviceId, hguard]; rfl
  · simp only [exec, execGetErrorCode, hguard]; rfl
  · simp only [exec, execGetStatusRaw, hguard]; rfl
  have hslice : Buffer.slice s.P.pbuf 0 s.P.idx.toNat = bs := by
    refine Buffer.slice_eq hlen fun n hn => ?_
    rw [← hlen] at hn
    rw [List.getElem?_eq_getElem hn, hget n hn, Nat.zero_add]
  rw [exec_getPayload_complete hp hc hcap, hslice]
  rfl

/-- Settles O26: the guard all four accessors share refuses. -/
theorem accessorsOutsideComplete : Obligations.AccessorsOutsideComplete := by
  intro s i hp hc hi
  simp only [List.mem_cons, List.not_mem_nil, or_false] at hi
  have hguard := whenComplete_of_not_complete hp hc
  rcases hi with rfl | rfl | rfl | rfl
  · simp only [exec, execGetDeviceId, hguard]; rfl
  · simp only [exec, execGetErrorCode, hguard]; rfl
  · simp only [exec, execGetPayload, hguard]; rfl
  · simp only [exec, execGetStatusRaw, hguard]; rfl

/-! ### The resolution of a status byte (R80, R118) -/

/-- A valid priority finds a set bit of every nonzero status byte (R10). -/
theorem exists_priority_bit {p : Params} (hp : p.Valid) {s : Byte} (hs : s ≠ 0) :
    ∃ i, (p.statusPriority.find? fun i : Fin 8 => s.getLsbD i.val) = some i := by
  obtain ⟨-, -, -, hperm⟩ := hp
  obtain ⟨k, hk, hbit⟩ : ∃ k, ∃ _ : k < 8, s.getLsbD k = true := by
    by_contra hnone
    refine hs (BitVec.eq_of_getLsbD_eq fun k hk => ?_)
    simpa using fun hbit => hnone ⟨k, hk, hbit⟩
  have hmem : (⟨k, hk⟩ : Fin 8) ∈ p.statusPriority := hperm.mem_iff.mpr (List.mem_finRange _)
  exact Option.isSome_iff_exists.mp (List.find?_isSome.mpr ⟨_, hmem, hbit⟩)

theorem resolve_of_find {p : Params} {s : Byte} (hs : s ≠ 0) {i : Fin 8}
    (hi : (p.statusPriority.find? fun i : Fin 8 => s.getLsbD i.val) = some i) :
    resolve p s = faultCode (p.statusBitMap[i.val]) := by
  rw [resolve, if_neg hs, hi]
  rfl

/-- Settles O27: the priority finds a set bit, and `find?` answers the first. -/
theorem resolvePicksTheFirstSetBit : Obligations.ResolvePicksTheFirstSetBit := by
  intro p s hp
  refine ⟨fun hs => if_pos hs, fun hs => ?_, rfl, rfl⟩
  obtain ⟨i, hi⟩ := exists_priority_bit hp hs
  obtain ⟨hbit, before, after, hsplit, hclear⟩ := List.find?_eq_some_iff_append.mp hi
  exact ⟨before, after, i, hsplit, hbit, fun j hj => by simpa using hclear j hj, resolve_of_find hs hi⟩

/-! ### The running sum of a frame (R113) -/

/-- The parser has taken the first byte of a frame: it is past the preamble and ID. -/
def Parser.InFrame (P : Parser) : Prop :=
  P.state ∉ [ParserState.seek1, .seek2, .id]

section
variable {p : Params}

/-- Inside a frame every byte the parser takes adds itself to the sum, and does not lead back to the search. -/
theorem pstep_adds {P P' : Parser} {b : Byte} (h : P.InFrame) (hs : pstep p P b = .ok P') :
    P'.InFrame ∧ P'.sum = P.sum + b := by
  cases hst : P.state with
  | seek1 | seek2 | id => simp [Parser.InFrame, hst] at h
  | complete | failed =>
    have hd : P.done = true := by simp [Parser.done, hst]
    rw [pstep_terminal hd] at hs; cases hs
  | len =>
    rw [pstep_len hst] at hs
    cases hs
    by_cases hb : 2 ≤ b.toNat ∨ p.shortLengthPolicy = .zeroPayload
    · rw [pstepLen_taken P hb]; simp [Parser.InFrame]
    · obtain ⟨hshort, hf⟩ := shortLength_of_not_taken hb
      rw [pstepLen_malformed P hshort hf]; simp [Parser.InFrame]
  | status =>
    rw [pstep_status hst] at hs
    cases hs
    by_cases hn : npay P = 0
    · simp [pstepStatus, Parser.InFrame, hn]
    · simp [pstepStatus, Parser.InFrame, hn]
  | payload =>
    rw [pstep_payload hst (idx_lt_of_pstep_payload hst hs)] at hs
    cases hs
    by_cases hlast : P.idx.toNat + 1 = npay P
    · simp [Parser.InFrame, hlast]
    · simp [Parser.InFrame, hlast]
  | check =>
    rw [pstep_check hst] at hs
    cases hs
    by_cases hb : P.sum + b = 0xFF
    · rw [pstepCheck_complete hb]; simp [Parser.InFrame, hb]
    · rw [pstepCheck_failed p hb]; simp [Parser.InFrame]

/-- A run of bytes inside a frame adds its sum. -/
theorem feed_adds {P' : Parser} {bs : List Byte} : ∀ {P : Parser}, P.InFrame → feed p P bs = .ok P' →
    P'.sum = P.sum + sum8 bs := by
  induction bs with
  | nil => intro P _ h; cases h; simp
  | cons b bs ih =>
    intro P hf h
    rw [feed] at h
    cases hs : pstep p P b with
    | error f => rw [hs] at h; cases h
    | ok Q =>
      rw [hs] at h
      obtain ⟨hQ, hsum⟩ := pstep_adds hf hs
      rw [ih hQ h, hsum, sum8_cons, BitVec.add_assoc]

/-- Settles O28: the byte taken in ID starts the sum, and the others add to it. -/
theorem runningSum : Obligations.RunningSum := by
  intro p P P' bs hst hne h
  obtain ⟨b, bs, rfl⟩ := List.exists_cons_of_ne_nil hne
  rw [feed_cons_of_ok (pstep_id hst)] at h
  have hid : (pstepId P b).InFrame := by simp [Parser.InFrame, pstepId]
  calc P'.sum = (pstepId P b).sum + sum8 bs := feed_adds hid h
    _ = sum8 (b :: bs) := (sum8_cons b bs).symm

/-! ### A byte inside a frame (R107, R116) -/

/-- Settles O29: only LEN can fail, and no state before CHECK leads to COMPLETE or back to the search. -/
theorem noAbortInsideAFrame : Obligations.NoAbortInsideAFrame := by
  intro p P b hmem hidx
  simp only [List.mem_cons, List.not_mem_nil, or_false] at hmem
  rcases hmem with hst | hst | hst | hst
  · exact ⟨_, pstep_id hst, by simp [pstepId]⟩
  · refine ⟨_, pstep_len hst, ?_⟩
    by_cases hb : 2 ≤ b.toNat ∨ p.shortLengthPolicy = .zeroPayload
    · rw [pstepLen_taken P hb]; simp
    · obtain ⟨hshort, hf⟩ := shortLength_of_not_taken hb
      rw [pstepLen_malformed P hshort hf]; simp [hst, hshort, hf]
  · refine ⟨_, pstep_status hst, ?_⟩
    by_cases hn : npay P = 0
    · simp [pstepStatus, hn]
    · simp [pstepStatus, hn]
  · refine ⟨_, pstep_payload hst ((hidx hst).trans_le (npay_le P)), ?_⟩
    by_cases hlast : P.idx.toNat + 1 = npay P
    · simp [hlast]
    · simp [hlast]

/-! ### The bytes a frame still has (R112) -/

/-- How many bytes a parser past LEN takes until it is terminal: the status, the payload bytes not yet stored and the
checksum. -/
inductive BytesLeft (P : Parser) : Nat → Prop
  | terminal : P.done = true → BytesLeft P 0
  | check : P.state = .check → BytesLeft P 1
  | payload : P.state = .payload → P.idx.toNat < npay P → BytesLeft P (npay P - P.idx.toNat + 1)
  | status : P.state = .status → P.idx = 0 → BytesLeft P (npay P + 2)

/-- Each byte is taken and leaves one less. -/
theorem BytesLeft.pstep {P : Parser} {n : Nat} (h : BytesLeft P (n + 1)) (b : Byte) :
    ∃ P', Sys2Proof.Machine.pstep p P b = .ok P' ∧ BytesLeft P' n := by
  cases h with
  | check hst =>
    refine ⟨_, pstep_check hst, .terminal ?_⟩
    unfold pstepCheck
    dsimp only
    split_ifs
    · rfl
    · rfl
  | payload hst hidx =>
    refine ⟨_, pstep_payload hst (hidx.trans_le (npay_le P)), ?_⟩
    by_cases hlast : P.idx.toNat + 1 = npay P
    · have hone : npay P - P.idx.toNat = 1 := by omega
      rw [hone]
      exact .check (if_pos hlast)
    · have hsucc := idx_succ_toNat hidx
      have hleft : npay P - P.idx.toNat = npay P - (P.idx + 1).toNat + 1 := by omega
      rw [hleft]
      exact .payload (if_neg hlast) (by rw [hsucc]; exact lt_of_le_of_ne hidx hlast)
  | status hst hidx =>
    refine ⟨_, pstep_status hst, ?_⟩
    by_cases hn : npay P = 0
    · rw [hn]
      exact .check (if_pos hn)
    · have hidx0 : (pstepStatus P b).idx.toNat = 0 := congrArg BitVec.toNat hidx
      have hleft : npay P + 1 = npay (pstepStatus P b) - (pstepStatus P b).idx.toNat + 1 := by rw [hidx0]; rfl
      rw [hleft]
      exact .payload (if_neg hn) (hidx0.trans_lt (Nat.pos_of_ne_zero hn))

/-- As many bytes as are left lead to a terminal state. -/
theorem BytesLeft.feed {bs : List Byte} : ∀ {P : Parser}, BytesLeft P bs.length →
    ∃ P', Sys2Proof.Machine.feed p P bs = .ok P' ∧ P'.done = true := by
  induction bs with
  | nil => intro P h; cases h with | terminal hd => exact ⟨P, rfl, hd⟩
  | cons b bs ih =>
    intro P h
    obtain ⟨Q, hs, hQ⟩ := h.pstep (p := p) b
    rw [feed_cons_of_ok hs]
    exact ih hQ

/-- The bytes of a frame after its length byte: none if the length fails, else the status, the declared payload and the
checksum (R107, R112). -/
def bytesAfterLen (p : Params) (len : Byte) : Nat :=
  if 2 ≤ len.toNat then len.toNat
  else if p.shortLengthPolicy = .zeroPayload then 2
  else 0

theorem bytesAfterLen_taken {len : Byte} (h : 2 ≤ len.toNat ∨ p.shortLengthPolicy = .zeroPayload) :
    bytesAfterLen p len = len.toNat - 2 + 2 := by
  unfold bytesAfterLen
  split_ifs with hl hz
  · exact (Nat.sub_add_cancel hl).symm
  · omega
  · exact absurd h (not_or.mpr ⟨hl, hz⟩)

theorem bytesAfterLen_malformed {len : Byte} (h : ¬ (2 ≤ len.toNat ∨ p.shortLengthPolicy = .zeroPayload)) :
    bytesAfterLen p len = 0 := by
  obtain ⟨hl, hz⟩ := not_or.mp h
  rw [bytesAfterLen, if_neg hl, if_neg hz]

theorem bytesAfterLen_le (p : Params) (len : Byte) : bytesAfterLen p len ≤ 255 := by
  have hlen := len.isLt
  unfold bytesAfterLen
  split_ifs <;> omega

theorem bytesLeft_pstepLen (p : Params) (P : Parser) (len : Byte) :
    BytesLeft (pstepLen p P len) (bytesAfterLen p len) := by
  by_cases htaken : 2 ≤ len.toNat ∨ p.shortLengthPolicy = .zeroPayload
  · rw [bytesAfterLen_taken htaken, pstepLen_taken P htaken]
    exact .status rfl rfl
  · obtain ⟨hshort, hf⟩ := shortLength_of_not_taken htaken
    rw [bytesAfterLen_malformed htaken, pstepLen_malformed P hshort hf]
    exact .terminal rfl

/-- A parser in ID is terminal after the id, the length byte and the bytes of the frame after it. -/
theorem feed_frame_done {P : Parser} (hst : P.state = .id) (id len : Byte) {rest : List Byte}
    (hrest : rest.length = bytesAfterLen p len) :
    ∃ P', feed p P (id :: len :: rest) = .ok P' ∧ P'.done = true := by
  have hleft := bytesLeft_pstepLen p (pstepId P id) len
  rw [← hrest] at hleft
  obtain ⟨P', hfeed, hdone⟩ := hleft.feed (p := p)
  exact ⟨P', by rw [feed_cons_of_ok (pstep_id hst), feed_cons_of_ok (pstep_len rfl), hfeed], hdone⟩

/-! ### The search has no bound (R104, R105, R112) -/

/-- The parser seeks, and `Q` holds of the bytes to come, with the marker just taken before them in SEEK2. -/
def Seeking (Q : List Byte → Prop) (P : Parser) (bs : List Byte) : Prop :=
  (P.state = .seek1 ∧ Q bs) ∨ (P.state = .seek2 ∧ Q (0xFF :: bs))

/-- What a property of byte lists must satisfy for the search to go on over any list with it: it excludes two markers
at the front, it holds of shorter ends, and under STAY_SEEK2 also with a byte after the first one left out. -/
structure KeepsSeeking (p : Params) (Q : List Byte → Prop) : Prop where
  markers : ∀ bs, ¬ Q (0xFF :: 0xFF :: bs)
  tail : ∀ b bs, Q (b :: bs) → Q bs
  stay : p.seek2Mismatch = .staySeek2 → ∀ b bs, Q (0xFF :: b :: bs) → Q (0xFF :: bs)

theorem Seeking.pstep {Q : List Byte → Prop} (hQ : KeepsSeeking p Q) {P : Parser} {b : Byte} {bs : List Byte}
    (h : Seeking Q P (b :: bs)) : ∃ P', Sys2Proof.Machine.pstep p P b = .ok P' ∧ Seeking Q P' bs := by
  rcases h with ⟨hst, h⟩ | ⟨hst, h⟩
  · refine ⟨_, pstep_seek1 hst, ?_⟩
    rw [pstepSeek1_eq hst]
    by_cases hb : b = 0xFF
    · rw [hb] at h
      exact .inr ⟨if_pos hb, h⟩
    · exact .inl ⟨if_neg hb, hQ.tail _ _ h⟩
  · refine ⟨_, pstep_seek2 hst, ?_⟩
    have hb : b ≠ 0xFF := by
      rintro rfl
      exact hQ.markers _ h
    rw [pstepSeek2_eq hst, if_neg hb]
    cases hm : p.seek2Mismatch with
    | toSeek1 => exact .inl ⟨rfl, hQ.tail _ _ (hQ.tail _ _ h)⟩
    | staySeek2 => exact .inr ⟨rfl, hQ.stay hm _ _ h⟩

theorem Seeking.feed {Q : List Byte → Prop} (hQ : KeepsSeeking p Q) {bs : List Byte} : ∀ {P : Parser},
    Seeking Q P bs → ∃ P', Sys2Proof.Machine.feed p P bs = .ok P' ∧ (P'.state = .seek1 ∨ P'.state = .seek2) := by
  induction bs with
  | nil => exact fun {P} h => ⟨P, rfl, h.imp And.left And.left⟩
  | cons b bs ih =>
    intro P h
    obtain ⟨P', hs, hP⟩ := h.pstep hQ
    rw [feed_cons_of_ok hs]
    exact ih hP

/-- Without two adjacent markers the search goes on under TO_SEEK1. -/
theorem keepsSeeking_noAdjacentMarkers (hm : p.seek2Mismatch = .toSeek1) :
    KeepsSeeking p fun bs => ¬ [0xFF, 0xFF] <:+: bs where
  markers bs h := h ⟨[], bs, rfl⟩
  tail b _ h := fun hbs => h (hbs.trans (List.suffix_cons b _).isInfix)
  stay hstay := by rw [hm] at hstay; cases hstay

/-- With one marker at most the search goes on under both policies. -/
theorem keepsSeeking_oneMarker (p : Params) : KeepsSeeking p fun bs => bs.count 0xFF ≤ 1 where
  markers bs h := by simp at h
  tail b _ h := (List.count_le_count_cons).trans h
  stay _ b bs h := by
    rw [List.count_cons_self] at h ⊢
    exact (Nat.succ_le_succ List.count_le_count_cons).trans h

end

/-- Settles O30: `feed_frame_done` for the whole frame, `feed_take` for every shorter beginning, and the search that
goes on over both kinds of stream. -/
theorem frameLengthIsBounded : Obligations.FrameLengthIsBounded := by
  refine ⟨fun p P id len rest hst hlen => ?_, fun p P bs hst hbs => ?_⟩
  · have hrest : rest.length = bytesAfterLen p len := by
      unfold bytesAfterLen
      split_ifs at hlen ⊢ with hl hz
      · omega
      · rw [hz] at hlen; exact Nat.add_right_cancel hlen
      · rw [(shortLength_of_not_taken (not_or.mpr ⟨hl, hz⟩)).2] at hlen; exact Nat.add_right_cancel hlen
    have hle := bytesAfterLen_le p len
    obtain ⟨P', hfeed, hdone⟩ := feed_frame_done (p := p) hst id len hrest
    exact ⟨by omega, ⟨P', hfeed, hdone⟩, fun n hn => feed_take hfeed hn⟩
  · rcases hbs with ⟨hbs, hm⟩ | ⟨hbs, -⟩
    · exact Seeking.feed (keepsSeeking_noAdjacentMarkers hm) (.inl ⟨hst, hbs⟩)
    · exact Seeking.feed (keepsSeeking_oneMarker p) (.inl ⟨hst, hbs⟩)

/-! ### An exchange fed noise (R104, R183) -/

/-- Answers of the transport that are bytes, none of them a marker. -/
def Noise (answers : List (Option Byte)) : Prop :=
  ∀ a ∈ answers, ∃ b, a = some b ∧ b ≠ 0xFF

/-- A transport that answers noise for ever: its script is noise, then a pattern of noise repeats. -/
structure NoisyEnv (e : Env) : Prop where
  script : Noise e.rx
  pattern : ∃ pattern, e.rxTail = .repeating pattern ∧ pattern ≠ [] ∧ Noise pattern

theorem Noise.head {a : Option Byte} {rest : List (Option Byte)} (h : Noise (a :: rest)) :
    ∃ b, a = some b ∧ b ≠ 0xFF :=
  h a (List.mem_cons_self ..)

theorem Noise.tail {a : Option Byte} {rest : List (Option Byte)} (h : Noise (a :: rest)) : Noise rest :=
  fun x hx => h x (List.mem_cons_of_mem _ hx)

/-- A noisy transport answers a byte that is no marker, and stays noisy. -/
theorem rxRead_noisy {s : State} (h : NoisyEnv s.env) :
    ∃ b rx, b ≠ 0xFF ∧ rxRead s = (some b, { s with env := { s.env with rx := rx } }) ∧
      NoisyEnv { s.env with rx := rx } := by
  obtain ⟨pattern, htail, hne, hpattern⟩ := h.pattern
  cases hrx : s.env.rx with
  | cons a rest =>
    have hscript : Noise (a :: rest) := hrx ▸ h.script
    obtain ⟨b, rfl, hb⟩ := hscript.head
    exact ⟨b, rest, hb, rxRead_cons hrx, hscript.tail, h.pattern⟩
  | nil =>
    obtain ⟨a, rest, rfl⟩ := List.exists_cons_of_ne_nil hne
    obtain ⟨b, rfl, hb⟩ := hpattern.head
    exact ⟨b, rest, hb, by simp [rxRead, hrx, htail], hpattern.tail, h.pattern⟩

/-- In SEEK1 a byte that is no marker is dropped (R104). -/
theorem pstep_seek1_noise {p : Params} {P : Parser} {b : Byte} (hst : P.state = .seek1) (hb : b ≠ 0xFF) :
    pstep p P b = .ok P := by
  rw [pstep_seek1 hst]
  exact congrArg Except.ok (if_neg hb)

/-- One step of an exchange fed noise takes one answer of the transport and changes nothing else. -/
theorem step_noisy {s : State} (hp : s.D.phase = .rx) (hst : s.P.state = .seek1) (hh : NothingDue s.env.host)
    (h : NoisyEnv s.env) :
    ∃ rx, step s = .next { s with env := { s.env with rx := rx } } ∧ NoisyEnv { s.env with rx := rx } := by
  obtain ⟨b, rx, hb, hread, hrx⟩ := rxRead_noisy h
  refine ⟨rx, ?_, hrx⟩
  have hout : outcome s.P = .notDone := outcome_of_not_done (by simp [Parser.done, hst])
  rw [step_receive (fetch_rx hp hh), receive, hread]
  simp only [pstep_seek1_noise hst hb, afterByte, hout]

/-- Any number of steps of an exchange fed noise changes nothing but the transport's answers. -/
theorem run_noisy {n : Nat} : ∀ {s : State}, s.D.phase = .rx → s.P.state = .seek1 → NothingDue s.env.host →
    NoisyEnv s.env → ∃ rx, run n s = .next { s with env := { s.env with rx := rx } } := by
  induction n with
  | zero => exact fun {s} _ _ _ _ => ⟨s.env.rx, rfl⟩
  | succ n ih =>
    intro s hp hst hh h
    obtain ⟨rx, hstep, hrx⟩ := step_noisy hp hst hh h
    rw [run_succ hstep]
    exact ih (s := { s with env := { s.env with rx := rx } }) hp hst hh hrx

/-- Settles O54: by `run_noisy` only the transport's answers change. -/
theorem noiseKeepsTheExchangeOpen : Obligations.NoiseKeepsTheExchangeOpen := by
  intro s n pattern hp hst hh hscript htail hne hpattern
  obtain ⟨rx, hrun⟩ := run_noisy (n := n) hp hst hh ⟨hscript, pattern, htail, hne, hpattern⟩
  exact ⟨_, hrun, rfl, rfl, rfl⟩

end Sys2Proof.Machine

namespace Sys2Proof.Machine

/-! ### Acceptance, and the operations that end at once (R123, R143 to R147, R156) -/

/-- Settles O4: by the fetch and the decoder. -/
theorem stepRunsTheDecodedInstruction : Obligations.StepRunsTheDecodedInstruction :=
  fun _ _ _ _ hf hd => step_run hf hd

/-- Settles O32: every operation of the host is accepted in IDLE only. -/
theorem busyBlockWritesNoRegister : Obligations.BusyBlockWritesNoRegister :=
  fun _ _ hi hp => exec_busy hi hp

section
variable {ids : List Byte} {values : List (List Byte)}

theorem syncCheck_dim (h : ids.length ≠ values.length) : syncCheck ids values = some .dim := if_pos h

theorem syncCheck_empty (h : ids.length = values.length) (hids : ids = []) :
    syncCheck ids values = some .empty := by
  rw [syncCheck, if_neg (not_not.mpr h), if_pos (by simp [hids])]

/-- Two values of different widths cannot both have the width of the first. -/
theorem syncCheck_differing (h : ids.length = values.length) (hids : ids ≠ [])
    (hw : ∃ v ∈ values, ∃ w ∈ values, v.length ≠ w.length) : syncCheck ids values = some .width := by
  have hany : (values.any fun v => v.length != (values.headD []).length) = true := by
    by_contra hnone
    have hall : ∀ v ∈ values, v.length = (values.headD []).length := by simpa using hnone
    obtain ⟨v, hv, w, hw, hne⟩ := hw
    exact hne ((hall v hv).trans (hall w hw).symm)
  rw [syncCheck, if_neg (not_not.mpr h), if_neg (by simpa using hids), if_pos hany]

theorem values_ne_nil (h : ids.length = values.length) (hids : ids ≠ []) : values ≠ [] := by
  rintro rfl
  exact hids (List.length_eq_zero_iff.mp h)

/-- A SYNC_WRITE payload of `m` values of one width `k` has `2 + m * (1 + k)` bytes (R78). -/
theorem syncPayload_length_of_width {k : Nat} (offset : Byte) (h : ids.length = values.length)
    (hk : ∀ v ∈ values, v.length = k) : (syncPayload offset ids values).length = 2 + ids.length * (1 + k) := by
  rw [syncPayload, List.length_append, length_flatMap_zip h hk]
  rfl

end

/-- Settles O38: the three checks of `syncCheck` in their order, then ENCODE's own on the payload. -/
theorem syncWriteChecksInOrder : Obligations.SyncWriteChecksInOrder := by
  intro s ids offset values hp
  refine ⟨fun h => ?_, fun h hids => ?_, fun h hids hw => ?_, fun k h hids hk hl => ?_⟩
  · exact exec_syncWrite_refused hp offset (syncCheck_dim h)
  · exact exec_syncWrite_refused hp offset (syncCheck_empty h hids)
  · exact exec_syncWrite_refused hp offset (syncCheck_differing h hids hw)
  · rw [exec_syncWrite_idle hp offset (syncCheck_of_width h (values_ne_nil h hids) hk)]
    refine startCommand_refused _ (encodeCommand_of_tooLong (.inr rfl) ?_ _)
    rwa [syncPayload_length_of_width offset h hk]

theorem scanEnd_toNat (p : Params) (startId : Byte) (count : Nat) :
    (BitVec.ofNat 9 (scanEndOf p startId count)).toNat = scanEndOf p startId count := by
  rw [BitVec.toNat_ofNat]
  exact Nat.mod_eq_of_lt (by unfold scanEndOf; omega)

/-- Settles O39: the loop test after the four registers are written, whose range does not wrap. -/
theorem scanStarts : Obligations.ScanStarts := by
  intro s startId count hp last s1
  have hend : s1.D.scanEnd.toNat = last := scanEnd_toNat s.params startId count
  refine ⟨hend, fun hlt => ?_, fun hle => ?_⟩
  · rw [exec_scan_idle hp]
    exact congrArg _ (scanNext_of_lt (s := s1) (by rwa [hend]))
  · rw [exec_scan_idle hp]
    exact congrArg _ (scanNext_of_le (s := s1) (by rwa [hend]))

/-- Settles O55: of the ends of a host operation in IDLE, only the one that gives a result alone gives an error. -/
theorem rejectedOperationsChangeOnlyTheResult : Obligations.RejectedOperationsChangeOnlyTheResult := by
  intro s t i e hi hp h hidle herr
  cases exec_cases h with
  | busy _ hbusy => exact absurd hp hbusy
  | answer r => cases herr; rfl
  | load | clear | byte => cases herr
  | start => cases hidle
  | scan startId count =>
    by_cases hlt : (scanInit startId count s).D.scanId.toNat < (scanInit startId count s).D.scanEnd.toNat
    · rw [scanNext_of_lt hlt] at hidle; cases hidle
    · rw [scanNext_of_le (Nat.not_lt.mp hlt)] at herr; cases herr
  | await _ hframe | finish _ hframe => rw [hi] at hframe; cases hframe

/-! ### The steps of an exchange (R124, R126, R146) -/

section
variable {s : State}

/-- NONE from the transport is the end of the exchange. -/
theorem step_receive_none {rest : List (Option Byte)} (hp : s.D.phase = .rx) (hh : NothingDue s.env.host)
    (hr : s.env.rx = none :: rest) : step s = .next (timedOut { s with env := { s.env with rx := rest } }) := by
  rw [step_receive (fetch_rx hp hh), receive, rxRead_cons hr]

theorem timedOut_ping (h : s.D.activity = .ping) :
    timedOut s = Spec.ended s (.ok .none (.bool false)) [] := by
  simp only [timedOut, h]; rfl

theorem timedOut_scan (h : s.D.activity = .scan) : timedOut s = scanResolved false s := by
  simp only [timedOut, h]

/-- TIMEOUT is the end of the operations that give a bus error on silence (R126). -/
theorem timedOut_other (h : s.D.activity ∈ [Activity.read, .write, .regWrite, .reset]) :
    timedOut s = Spec.ended s (.error (.bus .timeout)) [] := by
  simp only [List.mem_cons, List.not_mem_nil, or_false] at h
  rcases h with h | h | h | h <;> simp only [timedOut, busError, activityLog, h] <;> rfl

theorem afterByte_not_done (h : s.P.done = false) : afterByte s = .next s := by
  simp only [afterByte, outcome_of_not_done h]

/-- A failed frame and a device fault end the operation with the parser's code. -/
theorem afterByte_error (h : s.P.state = .failed ∨ (s.P.state = .complete ∧ s.P.code ≠ .none)) :
    afterByte s = .next (busError s.P.code s) := by
  rcases h with h | ⟨h, hc⟩
  · simp only [afterByte, outcome, h]
  · simp only [afterByte, outcome, h, if_neg hc]

theorem afterByte_clean (h : s.P.state = .complete) (hc : s.P.code = .none) : afterByte s = replied s := by
  simp only [afterByte, outcome, h, if_pos hc]

theorem replied_ping (h : s.D.activity = .ping) :
    replied s = .next (Spec.ended s (.ok .none (.bool true)) []) := by
  simp only [replied, h]; rfl

theorem replied_scan (h : s.D.activity = .scan) : replied s = .next (scanResolved true s) := by
  simp only [replied, h]

theorem replied_read (h : s.D.activity = .read) {bs : List Byte} (hl : payloadOf s.P = .ok bs) :
    replied s = .next (Spec.ended s (.ok .none (.bytes bs)) []) := by
  simp only [replied, h, hl]; rfl

/-- The writes and RESET take nothing from a clean reply. -/
theorem replied_other (h : s.D.activity ∈ [Activity.write, .regWrite, .reset]) :
    replied s = .next (Spec.ended s (.ok .none .empty) []) := by
  simp only [List.mem_cons, List.not_mem_nil, or_false] at h
  rcases h with h | h | h <;> simp only [replied, h] <;> rfl

end

/-- Settles O45: the end of the exchange on silence, by activity. -/
theorem silenceInTheReceiveLoop : Obligations.SilenceInTheReceiveLoop := by
  intro s rest hp hh hr s1
  rw [step_receive_none hp hh hr]
  exact ⟨fun ha => congrArg _ (timedOut_ping (s := s1) ha), fun ha => congrArg _ (timedOut_scan (s := s1) ha),
    fun ha => congrArg _ (timedOut_other (s := s1) ha)⟩

/-- Settles O46: a parser short of a terminal state has no outcome, so the loop goes on. -/
theorem receiveLoopGoesOn : Obligations.ReceiveLoopGoesOn := by
  intro s b rest P' hp hh hr hs hd
  rw [step_receive_byte hp hh hr hs]
  exact afterByte_not_done hd

/-- Settles O47: both ends are a bus error with the parser's code. -/
theorem failedExchangeRaisesItsCode : Obligations.FailedExchangeRaisesItsCode := by
  intro s b rest P' hp hh hr hs hend
  rw [step_receive_byte hp hh hr hs]
  exact afterByte_error hend

/-- Settles O48: the end of the exchange on a clean reply, by activity. -/
theorem completedExchangeEnds : Obligations.CompletedExchangeEnds := by
  intro s b rest P' bs hp hh hr hs hst hc s1
  rw [step_receive_byte hp hh hr hs, afterByte_clean hst hc]
  exact ⟨fun ha => replied_ping (s := s1) ha, fun ha hl => replied_read (s := s1) ha hl,
    fun ha => replied_other (s := s1) ha, fun ha => replied_scan (s := s1) ha⟩

/-- Settles O49: a turn of SCAN's loop by what ENCODE answers for its PING. -/
theorem scanLoopTurns : Obligations.ScanLoopTurns := by
  intro s hp hh f
  rw [step_scan (fetch_scan hp hh)]
  refine ⟨fun hid => ?_, fun hid => ?_⟩
  · exact scanTurn_of_ok (encodeCommand_of_target hid (by simp) .ping)
  · exact scanTurn_of_error (encodeCommand_of_not_target hid .ping [])

end Sys2Proof.Machine

namespace Sys2Proof.Machine

/-! ### A dispatcher operation up to the end of its transmission (R97, R124, R125) -/

section
variable {s t : State} {i j : Instr} {a : Activity} {id : Byte} {f : List Byte} {later : List HostEvent}

/-- An operation `i` is accepted with its frame `f` in TXBUF, `f` is the command frame `j`, and its transmission leads
to `t`. -/
structure Launches (s : State) (i : Instr) (a : Activity) (j : Instr) (f : List Byte) (t : State) : Prop where
  accepted : exec i s = .next (Spec.started s a f)
  wellFormed : wellFormed s.params j = true
  encoded : encode s.params j = .frame f
  transmitted : exec j (Spec.started s a f) = .next t

/-- In IDLE the step takes the operation the host issues and runs it. -/
theorem step_issued (hp : s.D.phase = .idle) (hi : Spec.Issues s i later) : step s = exec i (s.withHost later) := by
  obtain ⟨-, ⟨r, hr, hh⟩, -⟩ := hi
  exact step_run (fetch_request hp hh) (congrArg Except.ok (decodeRequest_of_encode hr))

/-- A command frame that decodes fits TXBUF (R34, R66). -/
theorem length_of_decodeFrame {p : Params} (h : decodeFrame p f = .ok j) : f.length ≤ Config.txCapacity := by
  obtain ⟨id, c, payload, rfl, -, hl, -⟩ := decodeFrame_ok h
  rw [buildFrame_length]
  exact Nat.add_le_add_right hl 6

/-- The step after the acceptance runs the command frame that stands in TXBUF. -/
theorem step_started (hv : s.params.Valid) (hh : NothingDue s.env.host) (hw : wellFormed s.params j = true)
    (he : encode s.params j = .frame f) (a : Activity) :
    step (Spec.started s a f) = exec j (Spec.started s a f) := by
  have hd : decodeFrame s.params f = .ok j := decodeFrame_of_encode hv hw he
  have hlen := length_of_decodeFrame hd
  have htx : txFrame (Spec.started s a f) = .ok f := by
    simp only [txFrame, Spec.started, txlen_toNat hlen]
    exact Buffer.load_store _ hlen
  exact step_run (i := j) (fetch_tx rfl hh htx) hd

/-- The acceptance and the transmission of an operation are its first two steps. -/
theorem Launches.run_two (h : Launches (s.withHost later) i a j f t) (hv : s.params.Valid)
    (hp : s.D.phase = .idle) (hi : Spec.Issues s i later) : run 2 s = .next t := by
  have haccept := (step_issued hp hi).trans h.accepted
  obtain ⟨-, -, hlater⟩ := hi
  have hsend := (step_started (s := s.withHost later) hv hlater h.wellFormed h.encoded a).trans h.transmitted
  rw [run_succ haccept, run_succ hsend]
  rfl

/-! ### Broadcast operations (R125, R150) -/

/-- A broadcast operation has one frame to transmit, and the transmission ends it. -/
theorem broadcast_launches (hp : s.D.phase = .idle) (h : Spec.Broadcast s.params i f) :
    ∃ a j, Launches s i a j f (Spec.ended
      { Spec.started s a f with env := { s.env with sent := s.env.sent ++ [f] } } (.ok .none .empty) []) := by
  have hdomain := broadcast_inDomain s.params
  have hreply : (s.params.broadcastId != s.params.broadcastId) = false := bne_self_eq_false _
  have hframe (c : Cmd) (payload : List Byte) :=
    congrArg Code.frame (frame_eq_buildFrame s.params.broadcastId (s.params.code c) payload).symm
  have hend (a : Activity) (c : Cmd) (payload : List Byte) {reply : Bool} :=
    transmit_ends (s := Spec.started s a (Spec.frame s.params.broadcastId (s.params.code c) payload)) (reply := reply)
      rfl s.params.broadcastId c payload
  cases h with
  | write offset data hl =>
    obtain ⟨-, -, -, hstart⟩ := targetedOperationsStart s s.params.broadcastId offset 0 data hp (.inr rfl)
    exact ⟨_, .cmdWrite _ offset data, (hstart hl).1, by simp [wellFormed, hdomain]; omega, hframe .write _,
      hend _ .write _ hreply⟩
  | regWrite offset data hl =>
    obtain ⟨-, -, -, hstart⟩ := targetedOperationsStart s s.params.broadcastId offset 0 data hp (.inr rfl)
    exact ⟨_, .cmdRegWrite _ offset data, (hstart hl).2, by simp [wellFormed, hdomain]; omega, hframe .regWrite _,
      hend _ .regWrite _ hreply⟩
  | reset =>
    obtain ⟨-, -, hstart, -⟩ := targetedOperationsStart s s.params.broadcastId 0 0 [] hp (.inr rfl)
    exact ⟨_, .cmdReset _, hstart, hdomain, hframe .reset _, hend _ .reset _ hreply⟩
  | action =>
    exact ⟨_, .cmdAction, actionStarts s hp, rfl, hframe .action _, hend _ .action _ rfl⟩
  | syncWrite ids offset values k hlen hids hk hl =>
    have hne := values_ne_nil hlen hids
    have hpayload : syncPayload offset ids values =
        offset :: BitVec.ofNat 8 k :: (ids.zip values).flatMap fun e => e.1 :: e.2 := by
      rw [syncPayload, headD_length hne hk]
      rfl
    have hshape := syncShapeOk_of_check (syncCheck_of_width hlen hne hk)
    have hsize : syncPayloadLength ids values ≤ 253 := by
      rw [syncPayloadLength, headD_length hne hk]
      exact hl
    have hstart := syncWriteStarts s ids offset values k hp hlen hids hk hl
    rw [← hpayload] at hstart ⊢
    exact ⟨_, .cmdSyncWrite offset ids values, hstart, by simp [wellFormed, hshape, hsize], hframe .syncWrite _,
      hend _ .syncWrite _ rfl⟩

/-- Settles O50: the acceptance and the transmission, which ends the operation. -/
theorem broadcastOperationsNeverRead : Obligations.BroadcastOperationsNeverRead := by
  intro s i f later hv hp hi hb
  obtain ⟨a, j, hlaunch⟩ := broadcast_launches (s := s.withHost later) hp hb
  exact ⟨_, hlaunch.run_two hv hp hi, rfl, rfl, rfl, rfl, rfl, rfl, rfl, rfl⟩

/-! ### Addressed operations (R124 to R137) -/

/-- The activity of an operation that waits for a reply. -/
def awaitingActivity : Instr → Activity
  | .ping _ => .ping
  | .read _ _ _ => .read
  | .write _ _ _ => .write
  | .regWrite _ _ _ => .regWrite
  | .resetDevice _ => .reset
  | _ => .none

/-- An addressed operation has one frame to transmit, and then its reply is awaited. -/
theorem addressed_launches (hp : s.D.phase = .idle) (hid : Spec.Target s id)
    (h : Spec.Addressed s.params id i f) :
    ∃ j, Launches s i (awaitingActivity i) j f (Spec.awaiting (Spec.started s (awaitingActivity i) f) f) := by
  have hdomain := (target_iff_idInDomain s id).mp hid
  have hstart (offset count : Byte) (data : List Byte) := targetedOperationsStart s id offset count data hp hid
  have hframe (c : Cmd) (payload : List Byte) :=
    congrArg Code.frame (frame_eq_buildFrame id (s.params.code c) payload).symm
  have hsent (a : Activity) (c : Cmd) (payload : List Byte) {reply : Bool} :=
    transmit_awaits (s := Spec.started s a (Spec.frame id (s.params.code c) payload)) (reply := reply) rfl id c payload
  cases h with
  | ping =>
    obtain ⟨hping, -⟩ := hstart 0 0 []
    exact ⟨.cmdPing id, hping, hdomain, hframe .ping _, hsent _ .ping _ rfl⟩
  | read offset count =>
    obtain ⟨-, hread, -⟩ := hstart offset count []
    exact ⟨.cmdRead id offset count, hread, hdomain, hframe .read _, hsent _ .read _ rfl⟩
  | write offset data hne hl =>
    obtain ⟨-, -, -, hwrites⟩ := hstart offset 0 data
    exact ⟨.cmdWrite id offset data, (hwrites hl).1, by simp [wellFormed, hdomain]; omega, hframe .write _,
      hsent _ .write _ (bne_iff_ne.mpr hne)⟩
  | regWrite offset data hne hl =>
    obtain ⟨-, -, -, hwrites⟩ := hstart offset 0 data
    exact ⟨.cmdRegWrite id offset data, (hwrites hl).2, by simp [wellFormed, hdomain]; omega, hframe .regWrite _,
      hsent _ .regWrite _ (bne_iff_ne.mpr hne)⟩
  | reset hne =>
    obtain ⟨-, -, hreset, -⟩ := hstart 0 0 []
    exact ⟨.cmdReset id, hreset, hdomain, hframe .reset _, hsent _ .reset _ (bne_iff_ne.mpr hne)⟩

/-- The state in which an issued operation `i` has handed over its frame `f` and awaits the reply. -/
def exchangeBegun (s : State) (later : List HostEvent) (i : Instr) (f : List Byte) : State :=
  Spec.awaiting (Spec.started (s.withHost later) (awaitingActivity i) f) f

/-- The acceptance and the transmission of an addressed operation. -/
theorem run_addressed (hv : s.params.Valid) (hp : s.D.phase = .idle) (hid : Spec.Target s id)
    (hi : Spec.Issues s i later) (ha : Spec.Addressed s.params id i f) :
    run 2 s = .next (exchangeBegun s later i f) := by
  obtain ⟨j, hlaunch⟩ := addressed_launches (s := s.withHost later) hp hid ha
  exact hlaunch.run_two hv hp hi

/-- Silence gives an addressed operation its timeout result. -/
theorem timedOut_addressed {p : Params} (h : Spec.Addressed p id i f) (ha : s.D.activity = awaitingActivity i) :
    timedOut s = Spec.ended s (Spec.timeoutResult i) [] := by
  cases h with
  | ping => exact timedOut_ping ha
  | read | write | regWrite | reset => exact timedOut_other (by simp [ha, awaitingActivity])

/-- A clean reply gives an addressed operation its success, READ the payload. -/
theorem replied_addressed {p : Params} (h : Spec.Addressed p id i f) (ha : s.D.activity = awaitingActivity i)
    {payload : List Byte} (hl : payloadOf s.P = .ok payload) :
    replied s = .next (Spec.ended s (Spec.replyResult payload i) []) := by
  cases h with
  | ping => exact replied_ping ha
  | read => exact replied_read ha hl
  | write | regWrite | reset => exact replied_other (by simp [ha, awaitingActivity])

/-- No addressed operation is a SCAN, so its bus errors return no log. -/
theorem busError_addressed {p : Params} (h : Spec.Addressed p id i f) (ha : s.D.activity = awaitingActivity i)
    (c : ErrorCode) : busError c s = Spec.ended s (.error (.bus c)) [] := by
  have hscan : s.D.activity ≠ .scan := by
    rw [ha]
    cases h with
    | ping | read | write | regWrite | reset => simp [awaitingActivity]
  rw [busError, activityLog, if_neg hscan]
  rfl

/-- One step is the run of length 1. -/
theorem run_one (s : State) : run 1 s = step s := by
  unfold run
  cases step s with
  | next | fault | refused => rfl

/-- The same exchange with another parser and other answers of the transport to come. -/
def State.reading (s : State) (P : Parser) (rx : List (Option Byte)) : State :=
  { s with P := P, env := { s.env with rx := rx } }

/-- Settles O51: `run_receive` over the bytes before the silence, then the timeout. -/
theorem addressedOperationsTimeOut : Obligations.AddressedOperationsTimeOut := by
  intro s id i f noise rest P' later hv hp hid hi ha hf hd hr
  have hbegun := run_addressed hv hp hid hi ha
  obtain ⟨-, -, hlater⟩ := hi
  have hnoise := run_receive (s := exchangeBegun s later i f) rfl hlater hr hf hd
  have hsilence := step_receive_none (s := (exchangeBegun s later i f).reading P' (none :: rest)) rfl hlater rfl
  have hend := timedOut_addressed (s := (exchangeBegun s later i f).reading P' rest) ha rfl
  have hrun := (run_add hbegun _).trans ((run_add hnoise 1).trans
    ((run_one _).trans (hsilence.trans (congrArg Host.Outcome.next hend))))
  rw [show noise.length + 3 = 2 + (noise.length + 1) by omega]
  exact ⟨_, hrun, rfl, rfl, rfl, rfl, rfl, rfl, rfl⟩

/-! ### A status frame in the receive loop (R110, R118, R124, R128) -/

/-- Bytes the parser takes are all taken, and the last one is followed by what its outcome asks. -/
theorem run_receive_all {bs : List Byte} {rest : List (Option Byte)} {P' : Parser} (hp : s.D.phase = .rx)
    (hh : NothingDue s.env.host) (hne : bs ≠ []) (hr : s.env.rx = bs.map some ++ rest)
    (hf : feed s.params s.P bs = .ok P') :
    run bs.length s = afterByte (s.reading P' rest) := by
  obtain ⟨xs, b, rfl⟩ : ∃ xs b, bs = xs ++ [b] := ⟨_, _, (List.dropLast_append_getLast hne).symm⟩
  obtain ⟨Q, hxs, hb⟩ := feed_split hf
  have hlast : pstep s.params Q b = .ok P' := by
    cases hs : pstep s.params Q b with
    | ok _ => rw [feed_cons_of_ok hs] at hb; exact hb
    | error _ => simp [feed, hs] at hb
  have hbefore := run_receive (rest := some b :: rest) hp hh (by simpa using hr) hxs (done_of_pstep hlast)
  rw [List.length_append, run_add hbefore]
  exact (run_one _).trans (step_receive_byte (rest := rest) hp hh rfl hlast)

/-- The parser after a whole status frame: COMPLETE, with the frame in its registers and in PBUF. -/
def Parser.complete (P : Parser) (p : Params) (dev status : Byte) (payload : List Byte) : Parser :=
  { P.holdingBody dev status payload with state := .complete, code := resolve p status, sum := 0xFF }

theorem payloadOf_complete (P : Parser) (p : Params) (dev status : Byte) {payload : List Byte}
    (hn : payload.length ≤ 253) : payloadOf (P.complete p dev status payload) = .ok payload := by
  have hidx : (BitVec.ofNat 8 payload.length).toNat = payload.length := by rw [BitVec.toNat_ofNat]; omega
  rw [payloadOf, Parser.complete, Parser.holdingBody, hidx]
  exact Buffer.load_store _ hn

/-- A status frame is taken whole, and what follows it is left to the operation. -/
theorem run_receive_frame {dev status : Byte} {payload : List Byte} {rest : List (Option Byte)}
    (hp : s.D.phase = .rx) (hh : NothingDue s.env.host) (hst : s.P.state = .seek1) (hn : payload.length ≤ 253)
    (hr : s.env.rx = (Spec.frame dev status payload).map some ++ rest) :
    run (payload.length + 6) s = afterByte (s.reading (s.P.complete s.params dev status payload) rest) := by
  rw [frame_eq_buildFrame] at hr
  rw [← buildFrame_length dev status payload]
  exact run_receive_all hp hh (by simp [buildFrame]) hr (feed_buildFrame hst dev status hn)

/-- Under valid parameters only status 0 resolves to NONE (R10, R118). -/
theorem resolve_ne_none {p : Params} (hv : p.Valid) {status : Byte} (h : status ≠ 0) :
    resolve p status ≠ .none := by
  obtain ⟨i, hi⟩ := exists_priority_bit hv h
  rw [resolve_of_find h hi]
  cases p.statusBitMap[i.val] with
  | _ => simp [faultCode]

/-- A status frame ends an addressed operation: with its success on status 0, else with the resolved fault. -/
theorem afterByte_addressed {p : Params} (hv : s.params.Valid) (h : Spec.Addressed p id i f)
    (ha : s.D.activity = awaitingActivity i) {P : Parser} {dev status : Byte} {payload : List Byte}
    (hn : payload.length ≤ 253) (hP : s.P = P.complete s.params dev status payload) :
    afterByte s = .next (Spec.ended s
      (if status = 0 then Spec.replyResult payload i else .error (.bus (resolve s.params status))) []) := by
  have hstate : s.P.state = .complete := by rw [hP]; rfl
  have hcode : s.P.code = resolve s.params status := by rw [hP]; rfl
  split_ifs with hstatus
  · have hclean : s.P.code = .none := by rw [hcode, hstatus]; rfl
    rw [afterByte_clean hstate hclean]
    exact replied_addressed h ha (by rw [hP]; exact payloadOf_complete P _ _ _ hn)
  · have hfault : s.P.code ≠ .none := by rw [hcode]; exact resolve_ne_none hv hstatus
    rw [afterByte_error (.inr ⟨hstate, hfault⟩), busError_addressed h ha, hcode]

/-- Settles O52: the frame is taken whole, and its status decides the result. -/
theorem addressedOperationsTakeTheReply : Obligations.AddressedOperationsTakeTheReply := by
  intro s id dev status i f payload rest later hv hp hid hi ha hn hr r
  have hbegun := run_addressed hv hp hid hi ha
  obtain ⟨-, -, hlater⟩ := hi
  have hframe := run_receive_frame (s := exchangeBegun s later i f) rfl hlater rfl hn hr
  have hend := afterByte_addressed
    (s := (exchangeBegun s later i f).reading (s.P.cleared.complete s.params dev status payload) rest) hv ha rfl hn rfl
  have hrun := (run_add hbegun _).trans (hframe.trans hend)
  rw [show payload.length + 8 = 2 + (payload.length + 6) by omega]
  have hpayload := payloadOf_complete s.P.cleared s.params dev status hn
  exact ⟨_, hrun, rfl, rfl, rfl, rfl, rfl, rfl, rfl, hpayload, rfl, rfl⟩

end

end Sys2Proof.Machine

namespace Sys2Proof.Machine

/-! ### Runs whose every step is told (R147) -/

/-- `n` steps lead from `s` to `t`, and `R` relates the states around each of them. -/
def RunsBy (R : State → State → Prop) (n : Nat) (s t : State) : Prop :=
  run n s = .next t ∧ ∀ m < n, ∃ u v, run m s = .next u ∧ step u = .next v ∧ R u v

section
variable {R R' : State → State → Prop} {s t u : State} {m n : Nat}

theorem RunsBy.refl (R : State → State → Prop) (s : State) : RunsBy R 0 s s :=
  ⟨rfl, fun _ hm => absurd hm (Nat.not_lt_zero _)⟩

theorem RunsBy.single (h : step s = .next t) (hR : R s t) : RunsBy R 1 s t := by
  refine ⟨(run_one s).trans h, fun m hm => ?_⟩
  obtain rfl : m = 0 := Nat.lt_one_iff.mp hm
  exact ⟨s, t, rfl, h, hR⟩

theorem RunsBy.trans (h : RunsBy R m s t) (h' : RunsBy R n t u) : RunsBy R (m + n) s u := by
  obtain ⟨hrun, hsteps⟩ := h
  obtain ⟨hrun', hsteps'⟩ := h'
  refine ⟨(run_add hrun n).trans hrun', fun k hk => ?_⟩
  by_cases hkm : k < m
  · exact hsteps k hkm
  · obtain ⟨d, rfl⟩ := Nat.exists_eq_add_of_le (Nat.not_lt.mp hkm)
    rw [run_add hrun d]
    exact hsteps' d (by omega)

theorem RunsBy.mono (h : RunsBy R n s t) (hR : ∀ u v, R u v → R' u v) : RunsBy R' n s t := by
  obtain ⟨hrun, hsteps⟩ := h
  refine ⟨hrun, fun m hm => ?_⟩
  obtain ⟨u, v, hu, hv, huv⟩ := hsteps m hm
  exact ⟨u, v, hu, hv, hR u v huv⟩

theorem exists_step_of_run_succ (h : run (n + 1) s = .next t) : ∃ v, step s = .next v ∧ run n v = .next t := by
  rw [run] at h
  cases hs : step s with
  | next v => rw [hs] at h; exact ⟨v, rfl, h⟩
  | fault f => rw [hs] at h; cases h
  | refused r => rw [hs] at h; cases h

/-- A step takes no frame back. -/
theorem sent_grows_of_step (h : step s = .next t) : s.env.sent <+: t.env.sent := by
  rcases onlyTxTransmitsAndTransmitsTxbuf s t h with hsent | ⟨-, f, -, hsent⟩
  · rw [hsent]
  · exact ⟨[f], hsent.symm⟩

theorem sent_grows_of_run : ∀ {n : Nat} {s : State}, run n s = .next t → s.env.sent <+: t.env.sent
  | 0, _, h => by cases h; exact ⟨[], List.append_nil _⟩
  | _ + 1, _, h => by
    obtain ⟨v, hs, hv⟩ := exists_step_of_run_succ h
    exact (sent_grows_of_step hs).trans (sent_grows_of_run hv)

/-- The two states have transmitted the same frames. -/
def SameSent (s t : State) : Prop := t.env.sent = s.env.sent

/-- A run that ends with the frames it began with has transmitted none at any step. -/
theorem runsBy_sameSent : ∀ {n : Nat} {s : State}, run n s = .next t → SameSent s t → RunsBy SameSent n s t
  | 0, _, h, _ => by cases h; exact .refl _ _
  | n + 1, s, h, hsent => by
    obtain ⟨v, hs, hv⟩ := exists_step_of_run_succ h
    have hbefore := sent_grows_of_step hs
    have hafter := sent_grows_of_run hv
    rw [hsent] at hafter
    have hsame : v.env.sent = s.env.sent :=
      hafter.eq_of_length (le_antisymm hafter.length_le hbefore.length_le)
    rw [Nat.add_comm]
    exact (RunsBy.single hs hsame).trans (runsBy_sameSent hv (hsent.trans hsame.symm))

end

/-! ### The events and the answers of a scan, one by one (R35, R146) -/

section
variable {answers : List Spec.ScanAnswer} {k : Nat}

@[simp] theorem scanEvents_length (id : Nat) (answers : List Spec.ScanAnswer) :
    (Spec.scanEvents id answers).length = answers.length := by
  induction answers generalizing id with
  | nil => rfl
  | cons a answers ih => simp [Spec.scanEvents, ih]

theorem scanEvents_getElem (id : Nat) (h : k < answers.length) :
    (Spec.scanEvents id answers)[k]'(by simpa using h) = ⟨BitVec.ofNat 8 (id + k), answers[k].isSome⟩ := by
  induction answers generalizing id k with
  | nil => cases h
  | cons a answers ih =>
    cases k with
    | zero => rfl
    | succ k =>
      simp only [Spec.scanEvents, List.getElem_cons_succ]
      rw [ih (id + 1) (by simpa using h), Nat.add_right_comm, Nat.add_assoc]

/-- The events of one more PING. -/
theorem scanEvents_take_succ (id : Nat) (h : k < answers.length) :
    (Spec.scanEvents id answers).take (k + 1) =
      (Spec.scanEvents id answers).take k ++ [⟨BitVec.ofNat 8 (id + k), answers[k].isSome⟩] := by
  rw [← scanEvents_getElem id h, List.take_append_getElem]

/-- All the events of a scan. -/
theorem scanEvents_take_all (id : Nat) (answers : List Spec.ScanAnswer) :
    (Spec.scanEvents id answers).take answers.length = Spec.scanEvents id answers := by
  rw [← scanEvents_length id answers, List.take_length]

theorem scanPings_append (p : Params) (xs ys : List ScanEvent) :
    Spec.scanPings p (xs ++ ys) = Spec.scanPings p xs ++ Spec.scanPings p ys :=
  List.map_append

/-- The answers to come begin with the one of the PING in turn. -/
theorem scanAnswers_drop (h : k < answers.length) :
    Spec.scanAnswers (answers.drop k) =
      Spec.scanAnswers [answers[k]] ++ Spec.scanAnswers (answers.drop (k + 1)) := by
  rw [List.drop_eq_getElem_cons h]
  exact List.flatMap_append (xs := [answers[k]])

end

/-! ### One PING of a scan (R129, R146) -/

/-- A clean reply resolves the PING of a scan. -/
theorem afterByte_scan {s : State} (hact : s.D.activity = .scan) (hst : s.P.state = .complete)
    (hc : s.P.code = .none) : afterByte s = .next (scanResolved true s) :=
  (afterByte_clean hst hc).trans (replied_scan hact)

/-- A PING's answer, clean or silent, is taken whole, its event is logged, and the loop test follows. -/
theorem run_scanAnswer {s : State} {a : Spec.ScanAnswer} {more : List (Option Byte)} (hp : s.D.phase = .rx)
    (hact : s.D.activity = .scan) (hst : s.P.state = .seek1) (hh : NothingDue s.env.host)
    (ha : ∀ reply ∈ a, reply.2.length ≤ 253) (hr : s.env.rx = Spec.scanAnswers [a] ++ more) :
    ∃ n P, run n s = .next (scanNext (scanLogged a.isSome (s.reading P more))) := by
  cases a with
  | none =>
    have hend := timedOut_scan (s := s.reading s.P more) hact
    exact ⟨1, s.P, (run_one s).trans ((step_receive_none hp hh hr).trans (congrArg Host.Outcome.next hend))⟩
  | some reply =>
    obtain ⟨dev, payload⟩ := reply
    have hrx : s.env.rx = (Spec.frame dev 0 payload).map some ++ more := by
      simpa [Spec.scanAnswers] using hr
    exact ⟨_, _, (run_receive_frame hp hh hst (ha _ rfl) hrx).trans (afterByte_scan hact rfl rfl)⟩

/-! ### The whole scan (R146, R147, R149) -/

/-- A step of a scan that began in `s` transmits a frame only when the `k` PINGs before it are resolved: the log has
their `k` events, and the transport has yet to give the answers after theirs. -/
def PingsInTurn (s : State) (events : List ScanEvent) (answers : List Spec.ScanAnswer) (rest : List (Option Byte))
    (u v : State) : Prop :=
  v.env.sent ≠ u.env.sent → ∃ k < answers.length,
    u.D.scanLog = events.take k ∧ u.env.rx = Spec.scanAnswers (answers.drop k) ++ rest ∧
    u.env.sent = s.env.sent ++ Spec.scanPings s.params (events.take k) ∧
    v.env.sent = s.env.sent ++ Spec.scanPings s.params (events.take (k + 1))

/-- The state before the loop test of a scan that began in `s` at id `start`, after `k` of its PINGs. -/
structure ScanAt (s : State) (start : Byte) (answers : List Spec.ScanAnswer) (rest : List (Option Byte))
    (later : List HostEvent) (k : Nat) (u : State) : Prop where
  params : u.params = s.params
  activity : u.D.activity = .scan
  scanId : u.D.scanId = BitVec.ofNat 8 (start.toNat + k)
  range : u.D.scanEnd.toNat - start.toNat = answers.length
  bound : u.D.scanEnd.toNat ≤ 254
  found : u.D.scanFound = (answers.take k).any Option.isSome
  log : u.D.scanLog = (Spec.scanEvents start.toNat answers).take k
  sent : u.env.sent = s.env.sent ++ Spec.scanPings s.params ((Spec.scanEvents start.toNat answers).take k)
  rx : u.env.rx = Spec.scanAnswers (answers.drop k) ++ rest
  host : u.env.host = later
  replies : u.env.replies = s.env.replies

/-- The PING of the id in turn is out, and its reply is awaited. -/
def pingSent (u : State) : State :=
  Spec.awaiting (Spec.started u .scan (Spec.frame u.D.scanId u.params.cmdPing []))
    (Spec.frame u.D.scanId u.params.cmdPing [])

section
variable {s u : State} {start : Byte} {k count : Nat} {answers : List Spec.ScanAnswer} {rest : List (Option Byte)}
  {later : List HostEvent}

/-- With an answer to come the id in turn lies in the range. -/
theorem ScanAt.scanId_lt (h : ScanAt s start answers rest later k u) (hk : k < answers.length) :
    u.D.scanId.toNat < u.D.scanEnd.toNat := by
  have hrange := h.range
  have hbound := h.bound
  rw [h.scanId, BitVec.toNat_ofNat]
  omega

/-- With every answer taken the range is used up. -/
theorem ScanAt.scanEnd_le (h : ScanAt s start answers rest later answers.length u) :
    u.D.scanEnd.toNat ≤ u.D.scanId.toNat := by
  have hrange := h.range
  have hbound := h.bound
  have hstart := start.isLt
  rw [h.scanId, BitVec.toNat_ofNat]
  omega

/-- The frame of the PING in turn is the next one of the scan. -/
theorem ScanAt.sent_succ (h : ScanAt s start answers rest later k u) (hk : k < answers.length) :
    (pingSent u).env.sent =
      s.env.sent ++ Spec.scanPings s.params ((Spec.scanEvents start.toNat answers).take (k + 1)) := by
  rw [scanEvents_take_succ _ hk, scanPings_append, ← List.append_assoc, ← h.sent, ← h.scanId, ← h.params]
  rfl

/-- The resolution of the PING in turn leaves the scan before the next one. -/
theorem ScanAt.succ (h : ScanAt s start answers rest later k u) (hk : k < answers.length) (P : Parser) :
    ScanAt s start answers rest later (k + 1) (scanLogged answers[k].isSome
      ((pingSent u).reading P (Spec.scanAnswers (answers.drop (k + 1)) ++ rest))) where
  params := h.params
  activity := rfl
  scanId := by
    rw [← Nat.add_assoc, BitVec.ofNat_add, ← h.scanId]
    rfl
  range := h.range
  bound := h.bound
  found := by
    rw [← List.take_append_getElem hk, List.any_append, ← h.found]
    simp [State.reading, pingSent, Spec.awaiting, Spec.started]
  log := by
    rw [scanEvents_take_succ _ hk, ← h.log, ← h.scanId]
    rfl
  sent := h.sent_succ hk
  rx := rfl
  host := h.host
  replies := h.replies

/-- From one loop test of a scan to the next: the PING in turn is sent, and then resolved. -/
theorem ScanAt.runs_succ (h : ScanAt s start answers rest later k u) (hk : k < answers.length)
    (hlater : NothingDue later) (hclean : ∀ a ∈ answers, ∀ reply ∈ a, reply.2.length ≤ 253) :
    ∃ n w, ScanAt s start answers rest later (k + 1) w ∧
      RunsBy (PingsInTurn s (Spec.scanEvents start.toNat answers) answers rest) n (scanNext u) (scanNext w) := by
  have hlt := h.scanId_lt hk
  have hhost : NothingDue u.env.host := by rw [h.host]; exact hlater
  have hid : Spec.Target u u.D.scanId := .inl (by have := h.bound; omega)
  have hping : step (scanNext u) = .next (pingSent u) := by
    obtain ⟨hturn, -⟩ := scanLoopTurns { u with D := { u.D with phase := .scan } } rfl hhost
    rw [scanNext_of_lt hlt]
    exact hturn hid
  have hrx : (pingSent u).env.rx =
      Spec.scanAnswers [answers[k]] ++ (Spec.scanAnswers (answers.drop (k + 1)) ++ rest) := by
    rw [← List.append_assoc, ← scanAnswers_drop hk]
    exact h.rx
  obtain ⟨n, P, hrun⟩ :=
    run_scanAnswer (s := pingSent u) rfl rfl rfl hhost (hclean _ (List.getElem_mem hk)) hrx
  refine ⟨1 + n, _, h.succ hk P, RunsBy.trans (.single hping fun _ => ?_) ((runsBy_sameSent hrun ?_).mono ?_)⟩
  · exact ⟨k, hk, by simpa using h.log, by simpa using h.rx, by simpa using h.sent, h.sent_succ hk⟩
  · exact scanNext_env_sent _
  · exact fun u v hsame hne => absurd hsame hne

/-- From any loop test of a scan to the last. -/
theorem ScanAt.runs (hlater : NothingDue later) (hclean : ∀ a ∈ answers, ∀ reply ∈ a, reply.2.length ≤ 253)
    (d : Nat) : ∀ {k : Nat} {u : State}, ScanAt s start answers rest later k u → k + d = answers.length →
    ∃ n w, ScanAt s start answers rest later answers.length w ∧
      RunsBy (PingsInTurn s (Spec.scanEvents start.toNat answers) answers rest) n (scanNext u) (scanNext w) := by
  induction d with
  | zero =>
    intro k u h hk
    obtain rfl : k = answers.length := hk
    exact ⟨0, u, h, .refl _ _⟩
  | succ d ih =>
    intro k u h hk
    obtain ⟨n, v, hv, hrun⟩ := h.runs_succ (by omega) hlater hclean
    obtain ⟨n', w, hw, hrun'⟩ := ih hv (by omega)
    exact ⟨n + n', w, hw, hrun.trans hrun'⟩

/-- The acceptance of a scan leaves it before its first loop test. -/
theorem scanAt_zero
    (hlen : answers.length = min (start.toNat + count) (min s.params.broadcastId.toNat 254) - start.toNat)
    (hr : s.env.rx = Spec.scanAnswers answers ++ rest) :
    ScanAt s start answers rest later 0 (scanInit start count (s.withHost later)) where
  params := rfl
  activity := rfl
  scanId := by simp
  range := by
    rw [scanInit_D_scanEnd, scanEnd_toNat]
    exact hlen.symm
  bound := by
    rw [scanInit_D_scanEnd, scanEnd_toNat, scanEndOf]
    omega
  found := rfl
  log := rfl
  sent := (List.append_nil _).symm
  rx := hr
  host := rfl
  replies := rfl

/-- The last loop test ends the scan with its flag and its log. -/
theorem ScanAt.ends (h : ScanAt s start answers rest later answers.length u) :
    scanNext u = Spec.ended u (.ok .none (.bool (answers.any Option.isSome)))
      (Spec.scanEvents start.toNat answers) := by
  have hfound : u.D.scanFound = answers.any Option.isSome := by rw [h.found, List.take_length]
  have hlog : u.D.scanLog = Spec.scanEvents start.toNat answers := by
    rw [h.log, scanEvents_take_all]
  rw [scanNext_of_le h.scanEnd_le, hfound, hlog]
  rfl

end

/-- Settles O53: the acceptance transmits nothing, then `ScanAt.runs` from the first loop test to the last. -/
theorem scanPingsInOrder : Obligations.ScanPingsInOrder := by
  intro s startId count answers rest later _ hp hi hlen hclean hr events result
  have haccept := (step_issued hp hi).trans (exec_scan_idle (s := s.withHost later) hp startId count)
  obtain ⟨-, -, hlater⟩ := hi
  obtain ⟨n, w, hw, hrun⟩ := ScanAt.runs hlater hclean answers.length (scanAt_zero hlen hr) (Nat.zero_add _)
  have hfirst : PingsInTurn s events answers rest s (scanNext (scanInit startId count (s.withHost later))) :=
    fun hne => absurd (scanNext_env_sent _) hne
  obtain ⟨hend, hsteps⟩ := (RunsBy.single haccept hfirst).trans hrun
  have hlog : w.D.scanLog = events := by rw [hw.log, scanEvents_take_all]
  have hsent : w.env.sent = s.env.sent ++ Spec.scanPings s.params events := by
    rw [hw.sent, scanEvents_take_all]
  have hrx : w.env.rx = rest := by rw [hw.rx, List.drop_length]; rfl
  rw [hw.ends] at hend
  exact ⟨_, _, hend, rfl, rfl, hlog, hsent, hrx, hw.host, congrArg (· ++ _) hw.replies, hsteps⟩

end Sys2Proof.Machine
